-- ==== Sys2Proof/Word.lean ====
section
/-!
DEFINITION. The bit vectors of the hardware: what the spec treats as bits (R5, R60).
Lengths and indices are counts, never shifted, masked or wrapped (R97, R120): they are `Nat` (log 3).
-/

namespace Sys2Proof

/-- An octet or a symbol: 8 bits (R5, R60). -/
abbrev Byte := BitVec 8

/-- A sextet: the 6 bits one symbol stands for (R5, R8). -/
abbrev Sextet := BitVec 6

/-- A group: 24 bits, three octets or four sextets (R60, R66). -/
abbrev Group := BitVec 24

/-- The command word CMD: bit 0 is CMD_OP, bit 1 is CMD_PRESENT (R71). -/
abbrev CmdWord := BitVec 2

end Sys2Proof
end

