-- ==== Sys2Proof/Config.lean ====
section
/-!
DEFINITION. What an implementation fixes (the parameter LENW, R5) and the free value of the allocator (R144).
-/

namespace Sys2Proof

/-- The least LENW an implementation may choose (R5, D2). -/
def Config.minLenw : Nat := 3

/-- The default of LENW (R5, D2). -/
def Config.defaultLenw : Nat := 32

/-- MAX_LEN = 2^LENW - 1, the largest length the block can hold (R5). -/
def Config.maxLen (lenw : Nat) : Nat := 2 ^ lenw - 1

/-- FREE VALUE: the allocator's answer to the request with this number, once the answers that the state
lists have run out (R144: a Boolean under no law). It has no body, so nothing can be proved of it (log 5). -/
opaque Config.allocatorAnswer : Nat → Bool

end Sys2Proof
end

