-- ==== Sys2Proof/Syntax.lean ====
section
/-!
DEFINITION. The two operations of spec/opcode_table.json, and the operands the host presents with a command word.
-/

namespace Sys2Proof

/-- One constructor per row of the opcode table; the argument is the field CMD_PRESENT of the word (R71, R72). -/
inductive Instr where
  /-- ENCODE, bytes to Base64 text (R90). -/
  | encode (present : Bool)
  /-- DECODE, Base64 text to bytes (R110). -/
  | decode (present : Bool)
  deriving DecidableEq, Repr

/-- What the host presents in the START hand-shake (R153): the command word, the length and the source binding.
`src` is a buffer or nothing; it is meaningful only when bit 1 of `cmd` is 1. -/
structure Command where
  cmd : CmdWord
  len : Nat
  src : Option (List Byte)
  deriving DecidableEq, Repr

end Sys2Proof
end

