-- ==== Sys2Proof/Machine/State.lean ====
section
/-!
DEFINITION. The state of the core and of the environment it runs in, as plain data (10_state.md), the reasons a
step can stop, and the state after reset (R30, R170).
-/

namespace Sys2Proof.Machine

/-- The sequencer PHASE (R21). Its numeric coding is not fixed, so it is a set of names. -/
inductive Phase where
  | idle
  | check
  | validate
  | length
  | alloc
  | run
  | finish
  | done
  deriving DecidableEq, Repr

/-- The registers that, by R22 to R26 and R30, hold a value in some phases only. -/
inductive Reg where
  | cmd
  | srcLen
  | i
  | j
  | v
  | outLen
  | acc
  deriving DecidableEq, Repr

/-- The labels of `raise Fail(...)` (R141). They name the source of a failure in the model's text; no field of
the state holds one (R143). -/
inductive FailCause where
  | null
  | empty
  | char
  | len4
  | ovf
  | alloc
  deriving DecidableEq, Repr

/-- Bytes by index: strictly rising indices; an index not listed holds no value (R28, U5). -/
abbrev Memory := List Host.Cell

/-- A destination buffer: `size` bytes at the indices 0 to `size - 1` (R28, R40, R46). -/
structure Buffer where
  size : Nat
  cells : Memory
  deriving DecidableEq, Repr

/-- A buffer under the name by which RES_BUF binds it (R19, R46, log 8). -/
structure NamedBuffer where
  name : Nat
  buf : Buffer
  deriving DecidableEq, Repr

/-- The three result registers RES_NULL, RES_LEN, RES_BUF (R17 to R19), always written together. -/
structure Results where
  null : Bool
  len : Nat
  buf : Option Nat
  deriving DecidableEq, Repr

/-- Whose move the next step is: the core's, or a move of the host or of the environment with its operands. -/
inductive Turn where
  /-- The core takes its step. -/
  | core
  /-- The host presents a command (R153). -/
  | start (c : Command)
  /-- The host gives a delivered buffer back (R154). -/
  | release (name : Nat)
  /-- The reset event (R170, R172). -/
  | reset
  deriving DecidableEq, Repr

/-- Why the machine stops with a fault. No state reached from reset raises one. -/
inductive Fault where
  /-- A read of a register in a phase in which the spec says it holds no value (R30: "A model must treat a read of an
  unspecified register as a fault of the model, never as zero"; D12; U2). Raised by `State.readReg`, by no step in any
  state; safe, the spec asks the model for this fault. -/
  | registerHoldsNoValue (r : Reg)
  /-- A read of SRC at or beyond SRC_LEN, or where no source byte is (R53). Raised by `State.readSrc`; safe. -/
  | sourceOutOfRange (k : Nat)
  /-- A write to DST at or beyond its size (R53). Raised by `State.writeDst`; safe. -/
  | destinationOutOfRange (k : Nat)
  /-- A write to DST, or the delivery of DST, when the operation has been granted none (R28). Raised by
  `State.writeDst` and `State.publish`; safe. -/
  | noDestination
  /-- A look-up of INV outside its indices or at a sentinel (R68, U8). Raised by `readSextet`; safe. -/
  | inverseLookup (c : Byte)
  /-- A step of an operation in a phase in which the spec gives it no step: IDLE, DONE, and VALIDATE for ENCODE
  (R21, R113, R185): no enabled step, a stuck state. Raised by `execEncode` and `execDecode`; safe. -/
  | noEnabledStep (p : Phase)
  deriving DecidableEq, Repr

/-- What the model gives no meaning to. -/
inductive Refusal where
  /-- An instruction without a meaning; raised by no arm of `exec` (safe). -/
  | notModelled (mnemonic : String)
  /-- START with a length that LENW bits cannot hold: the host has no such move (R14). Raised by `hostStart`; safe. -/
  | lengthWiderThanLenw (len : Nat)
  /-- START whose source has fewer bytes than SRC_LEN: host duty R178 broken, no such move (U6). Raised by
  `hostStart`; unsafe, for hardware driven by such a host does something the model never does (D14). -/
  | sourceShorterThanLength
  /-- RELEASE of a buffer the host does not own, or no longer owns (R180, U12). Raised by `hostRelease`; safe. -/
  | releaseNotOwned (name : Nat)
  deriving DecidableEq, Repr

/-- The state of one core, of the buffers it made, and of the inputs of its step relation (R10, R31). -/
structure State where
  /-- The parameter LENW (R5): chosen once, written by no step (log 2). -/
  lenw : Nat
  /-- PHASE (R21). -/
  phase : Phase
  /-- The command word: CMD_OP and CMD_PRESENT (R13). -/
  cmd : CmdWord
  /-- SRC_LEN (R14). -/
  srcLen : Nat
  /-- SRC: the source buffer, or nothing (R15, R27). -/
  src : Option (List Byte)
  /-- I, the source index of the group loop (R22). -/
  i : Nat
  /-- J, the destination index (R23). -/
  j : Nat
  /-- V, the index of the validation pass (R24). -/
  v : Nat
  /-- OUT_LEN (R25). -/
  outLen : Nat
  /-- ACC, the group accumulator (R26). -/
  acc : Group
  /-- The result registers; `none` from START until DONE, when they hold no value (R153). -/
  res : Option Results
  /-- DST, the buffer granted to the operation in progress (R28). -/
  dst : Option NamedBuffer
  /-- The buffers that earlier operations delivered and the host has not released, the latest first (R19, R154). -/
  delivered : List NamedBuffer
  /-- The model's own: the name of the next granted buffer (log 8). -/
  nextName : Nat
  /-- The model's own: whose move each coming step is; when empty, the core's (log 4). -/
  turns : List Turn
  /-- The model's own: the allocator's coming answers, the next one first (R144, log 5). -/
  answers : List Bool
  /-- The model's own: how many answers were taken from `Config.allocatorAnswer` (log 5). -/
  draws : Nat
  deriving DecidableEq, Repr

/-- The machine right after reset (R30, R170). PHASE = IDLE, RES_NULL = 1, RES_LEN = 0, RES_BUF nothing, no
destination buffer; LENW at its default (R5). The registers that hold no value store zero (log 7). -/
def State.reset : State where
  lenw := Config.defaultLenw
  phase := .idle
  cmd := 0
  srcLen := 0
  src := none
  i := 0
  j := 0
  v := 0
  outLen := 0
  acc := 0
  res := some { null := true, len := 0, buf := none }
  dst := none
  delivered := []
  nextName := 0
  turns := []
  answers := []
  draws := 0

end Sys2Proof.Machine
end

