-- ==== Sys2Proof/Machine/Tables.lean ====
section
/-!
DEFINITION. The two lookup tables FWD and INV (R11, R12, R63, R64), the padding character and the terminator (R65), and the
functions ALLOWED (R70) and SEXTET (R68) of the spec.
-/

namespace Sys2Proof.Machine

/-- The padding character `=`, code 0x3D (R65). -/
def padChar : Byte := 0x3D

/-- The terminator ENCODE appends, 0x00 (R65, D10). -/
def terminator : Byte := 0x00

/-- The codes of A to Z, the symbols of the values 0 to 25 (R63). -/
def fwdUpper : List Byte :=
  [0x41, 0x42, 0x43, 0x44, 0x45, 0x46, 0x47, 0x48, 0x49, 0x4A, 0x4B, 0x4C, 0x4D, 0x4E, 0x4F, 0x50, 0x51,
   0x52, 0x53, 0x54, 0x55, 0x56, 0x57, 0x58, 0x59, 0x5A]

/-- The codes of a to z, the symbols of the values 26 to 51 (R63). -/
def fwdLower : List Byte :=
  [0x61, 0x62, 0x63, 0x64, 0x65, 0x66, 0x67, 0x68, 0x69, 0x6A, 0x6B, 0x6C, 0x6D, 0x6E, 0x6F, 0x70, 0x71,
   0x72, 0x73, 0x74, 0x75, 0x76, 0x77, 0x78, 0x79, 0x7A]

/-- The codes of 0 to 9, the symbols of the values 52 to 61 (R63). -/
def fwdDigits : List Byte :=
  [0x30, 0x31, 0x32, 0x33, 0x34, 0x35, 0x36, 0x37, 0x38, 0x39]

/-- The codes of + and /, the symbols of the values 62 and 63 (R63). -/
def fwdLast : List Byte :=
  [0x2B, 0x2F]

/-- The 64 entries of FWD in index order (R63). -/
def fwdList : List Byte := fwdUpper ++ fwdLower ++ fwdDigits ++ fwdLast

theorem fwdList_length : fwdList.length = 64 := by decide

/-- `FWD[v]`, the code of the alphabet character of value `v` (R11). A 6-bit index is always in the table (R53). -/
def fwd (v : Sextet) : Byte :=
  fwdList[v.toNat]'(by rw [fwdList_length]; exact v.isLt)

/-- The sentinel of INV, 255 (R64). -/
def invSentinel : Byte := 0xFF

/-- The offset of INV: the code of `+`, the lowest of the allowed set (R12, D8). -/
def invOffset : Nat := 43

/-- INV at the indices 0 to 21, codes 43 to 64: `+`, `/` and the digits, the others sentinels (R64). -/
def invMarks : List Byte :=
  [62, 255, 255, 255, 63, 52, 53, 54, 55, 56, 57, 58, 59, 60, 61, 255, 255, 255, 255, 255, 255, 255]

/-- INV at the indices 22 to 47, codes 65 to 90: A to Z (R64). -/
def invUpper : List Byte :=
  [0, 1, 2, 3, 4, 5, 6, 7, 8, 9, 10, 11, 12, 13, 14, 15, 16, 17, 18, 19, 20, 21, 22, 23, 24, 25]

/-- INV at the indices 48 to 53, codes 91 to 96: sentinels (R64). -/
def invBetween : List Byte :=
  [255, 255, 255, 255, 255, 255]

/-- INV at the indices 54 to 79, codes 97 to 122: a to z (R64). -/
def invLower : List Byte :=
  [26, 27, 28, 29, 30, 31, 32, 33, 34, 35, 36, 37, 38, 39, 40, 41, 42, 43, 44, 45, 46, 47, 48, 49, 50, 51]

/-- The 80 entries of INV in index order (R64). -/
def invList : List Byte := invMarks ++ invUpper ++ invBetween ++ invLower

/-- `INV[x]`, where `x` is one of the indices 0 to 79 (R12). -/
def inv (x : Nat) : Option Byte := invList[x]?

/-- ALLOWED(c): `=`, or a code from 43 to 122 whose entry of INV is not the sentinel (R70). -/
def allowed (c : Byte) : Bool :=
  c == padChar ||
    (decide (invOffset ≤ c.toNat) &&
      match inv (c.toNat - invOffset) with
      | some e => e != invSentinel
      | none => false)

/-- SEXTET(c): 0 for `=`, else `INV[c - 43]` as 6 bits; defined on the allowed set only (R68). -/
def sextetOf (c : Byte) : Option Sextet :=
  if c = padChar then some 0
  else if c.toNat < invOffset then none
  else
    match inv (c.toNat - invOffset) with
    | some e => if e = invSentinel then none else some (e.setWidth 6)
    | none => none

end Sys2Proof.Machine
end

