-- ==== Sys2Proof/WellFormed.lean ====
section
/-!
DEFINITION. Which commands exist: every instruction is well formed (R73); a command the host presents carries a
length that fits LENW bits (R14) and a source of at least that many bytes (R178).
-/

namespace Sys2Proof

/-- The command word has no illegal, reserved or hint encoding (R73). -/
def Instr.wf : Instr → Bool
  | .encode _ => true
  | .decode _ => true

/-- SRC_LEN is a register of LENW bits (R14): the length presented must fit it. -/
def Command.lengthFits (lenw : Nat) (c : Command) : Bool :=
  decide (c.len ≤ Config.maxLen lenw)

/-- Host duty R178: when CMD_PRESENT = 1 a buffer of at least SRC_LEN bytes stands behind the command. -/
def Command.sourceServed (c : Command) : Bool :=
  match c.cmd.getLsbD 1, c.src with
  | true, some bytes => decide (c.len ≤ bytes.length)
  | true, none => false
  | false, _ => true

/-- A command the host of the spec can present. -/
def Command.wf (lenw : Nat) (c : Command) : Bool :=
  c.lengthFits lenw && c.sourceServed

end Sys2Proof
end

