-- ==== Sys2Proof/Machine/Ops.lean ====
section
/-!
DEFINITION. The named operations of the machine: memory and buffers (20_memory.md), the registers and the phases
in which they hold a value (10_state.md), the allocator (R144), the failure entry (R146) and the delivery of a result.
-/

namespace Sys2Proof.Machine

/-! ### Outcomes -/

/-- A step of the core: the next state, or the fault that stops the machine. -/
abbrev StepResult := Except Fault State

def StepResult.toOutcome (r : StepResult) : Host.Outcome State Fault Refusal :=
  match r with
  | .ok s => .next s
  | .error f => .fault f

/-! ### Memory: bytes by index -/

/-- The byte at index `k`, or nothing where none has been written (U5). -/
def Memory.read : Memory → Nat → Option Byte
  | [], _ => none
  | c :: m, k => if c.1 = k then some c.2 else Memory.read m k

/-- Stores `b` at index `k` and does nothing else (R45). -/
def Memory.write : Memory → Nat → Byte → Memory
  | [], k, b => [(k, b)]
  | c :: m, k, b =>
    if k < c.1 then (k, b) :: c :: m
    else if k = c.1 then (k, b) :: m
    else c :: Memory.write m k b

/-- The canonical form: strictly rising indices. -/
abbrev Memory.wf (m : Memory) : Prop := m.Pairwise fun a b => a.1 < b.1

/-- The canonical form of a buffer: rising indices, all below its size. -/
abbrev Buffer.wf (b : Buffer) : Prop := Memory.wf b.cells ∧ ∀ c ∈ b.cells, c.1 < b.size

/-- A buffer as the allocator grants it: `n` bytes that hold no value (R144). -/
def Buffer.fresh (n : Nat) : Buffer := { size := n, cells := [] }

def Buffer.read (b : Buffer) (k : Nat) : Option Byte := Memory.read b.cells k

def Buffer.write (b : Buffer) (k : Nat) (x : Byte) : Buffer :=
  { b with cells := Memory.write b.cells k x }

/-- What stands at every index of the buffer, in order. -/
def Buffer.contents (b : Buffer) : List (Option Byte) := (List.range b.size).map b.read

/-! ### The phases in which a register holds a value -/

/-- READY (R16). -/
def Phase.ready : Phase → Bool
  | .idle | .done => true
  | .check | .validate | .length | .alloc | .run | .finish => false

/-- Whether the register holds a value in a phase: CMD and SRC_LEN from the first START on (R30), I and J in RUN
and FINISH (R22, R23), V in VALIDATE (R24), OUT_LEN from the LENGTH step to the end of the operation (R25, R185),
ACC inside one step only and so in no phase (R26). -/
def Reg.holdsValue : Reg → Phase → Bool
  | .cmd, p => p != .idle
  | .srcLen, p => p != .idle
  | .i, p => p == .run || p == .finish
  | .j, p => p == .run || p == .finish
  | .v, p => p == .validate
  | .outLen, p => p == .alloc || p == .run || p == .finish
  | .acc, _ => false

/-- What is stored in a register, whether or not the spec lets it be read. -/
def State.stored (s : State) : Reg → Nat
  | .cmd => s.cmd.toNat
  | .srcLen => s.srcLen
  | .i => s.i
  | .j => s.j
  | .v => s.v
  | .outLen => s.outLen
  | .acc => s.acc.toNat

/-- Reads a register; where it holds no value the read is a fault of the model, never zero (R30, U2). -/
def State.readReg (s : State) (r : Reg) : Except Fault Nat :=
  if r.holdsValue s.phase then .ok (s.stored r) else .error (.registerHoldsNoValue r)

/-- MAX_LEN of this core (R5). -/
def State.maxLen (s : State) : Nat := Config.maxLen s.lenw

/-- CMD_OP = `CMD[0]` (R13). -/
def State.cmdOp (s : State) : Bool := s.cmd.getLsbD 0

/-- CMD_PRESENT = `CMD[1]` (R13). -/
def State.cmdPresent (s : State) : Bool := s.cmd.getLsbD 1

/-! ### Register writes -/

/-- `PHASE <- p`. -/
def State.enter (s : State) (p : Phase) : State := { s with phase := p }

/-- `V <- n`. -/
def State.setV (s : State) (n : Nat) : State := { s with v := n }

/-- `OUT_LEN <- n`. -/
def State.setOutLen (s : State) (n : Nat) : State := { s with outLen := n }

/-- `ACC <- g`. -/
def State.setAcc (s : State) (g : Group) : State := { s with acc := g }

/-- `I <- n`. -/
def State.setI (s : State) (n : Nat) : State := { s with i := n }

/-- `J <- n`. -/
def State.setJ (s : State) (n : Nat) : State := { s with j := n }

/-- The destination buffer of the operation in progress. -/
def State.setDst (s : State) (d : Option NamedBuffer) : State := { s with dst := d }

/-- The three result registers, `none` for no value. -/
def State.setRes (s : State) (r : Option Results) : State := { s with res := r }

/-! ### The source and the destination -/

/-- The first SRC_LEN bytes of the source buffer: what the operation works on (R15, R27). -/
def State.source (s : State) : List Byte :=
  match s.src with
  | some bytes => bytes.take s.srcLen
  | none => []

/-- `MemRead(SRC + k, 1)`; an index at or beyond SRC_LEN is out of range (R40, R44, R53). -/
def State.readSrc (s : State) (k : Nat) : Except Fault Byte :=
  match s.source[k]? with
  | some b => .ok b
  | none => .error (.sourceOutOfRange k)

/-- `MemWrite(DST + k, 1, b)`; an index at or beyond the granted size is out of range (R40, R44, R53). -/
def State.writeDst (s : State) (k : Nat) (b : Byte) : StepResult :=
  match s.dst with
  | none => .error .noDestination
  | some d =>
    if k < d.buf.size then .ok (s.setDst (some { d with buf := d.buf.write k b }))
    else .error (.destinationOutOfRange k)

/-- Bytes written to DST one after another at ascending indices from `k` (R47, R51). -/
def State.writeDstBytes (s : State) (k : Nat) : List Byte → StepResult
  | [] => .ok s
  | b :: bs => do
    let s ← s.writeDst k b
    s.writeDstBytes (k + 1) bs

/-! ### The allocator -/

/-- One answer of the allocator (R144): the next that the state lists, else the free value. -/
def State.draw (s : State) : Bool × State :=
  match s.answers with
  | g :: rest => (g, { s with answers := rest })
  | [] => (Config.allocatorAnswer s.draws, { s with draws := s.draws + 1 })

/-- A grant: `DST <- fresh buffer of n bytes`, under a name no buffer has (R144, R54). -/
def State.grant (s : State) (n : Nat) : State :=
  { s with dst := some { name := s.nextName, buf := Buffer.fresh n }, nextName := s.nextName + 1 }

/-! ### The two ends of an operation -/

/-- `raise Fail(cause)` (R146): the one failure entry, the same for every cause (R140, R143). -/
def raiseFail (_cause : FailCause) (s : State) : State :=
  (s.setRes (some { null := true, len := 0, buf := none })).enter .done

/-- The end of a successful operation: RES_NULL <- 0, RES_LEN <- OUT_LEN, RES_BUF <- DST, PHASE <- DONE. From
this step on the host owns the buffer (R19). -/
def State.publish (s : State) : StepResult := do
  let n ← s.readReg .outLen
  match s.dst with
  | none => .error .noDestination
  | some d =>
    .ok ((({ s with delivered := d :: s.delivered }.setDst none).setRes
      (some { null := false, len := n, buf := some d.name })).enter .done)

/-- The shared body of E-ALLOC and D-ALLOC for a request of `n` bytes (R93, R116). -/
def State.requestBuffer (s : State) (n : Nat) : State :=
  if s.draw.1 then (((s.draw.2.grant n).setI 0).setJ 0).enter .run else raiseFail .alloc s.draw.2

end Sys2Proof.Machine
end

