-- ==== Sys2Proof/Machine/Operands.lean ====
section
/-!
DEFINITION. Operand assembly: the 24-bit group as octets and as sextets (R66), the reads of an ENCODE group (R67) and of a
DECODE group (R68), and the length arithmetic of both operations (R92, R114).
-/

namespace Sys2Proof.Machine

/-! ### The two views of a group (R66) -/

def groupOfOctets (o0 o1 o2 : Byte) : Group := o0 ++ o1 ++ o2

def groupOfSextets (s0 s1 s2 s3 : Sextet) : Group := s0 ++ s1 ++ s2 ++ s3

/-- `ACC[23:16]`. -/
def octet0 (g : Group) : Byte := g.extractLsb' 16 8

/-- `ACC[15:8]`. -/
def octet1 (g : Group) : Byte := g.extractLsb' 8 8

/-- `ACC[7:0]`. -/
def octet2 (g : Group) : Byte := g.extractLsb' 0 8

/-- `ACC[23:18]`. -/
def sextet0 (g : Group) : Sextet := g.extractLsb' 18 6

/-- `ACC[17:12]`. -/
def sextet1 (g : Group) : Sextet := g.extractLsb' 12 6

/-- `ACC[11:6]`. -/
def sextet2 (g : Group) : Sextet := g.extractLsb' 6 6

/-- `ACC[5:0]`. -/
def sextet3 (g : Group) : Sextet := g.extractLsb' 0 6

/-! ### ENCODE -/

/-- The real bytes of the group at index `i`: `min(3, SRC_LEN - I)` (R67). -/
def realBytes (srcLen i : Nat) : Nat := min 3 (srcLen - i)

/-- Byte `m` of the group of `k` real bytes at index `i`; a missing byte is zero and is not read (R67, R53). -/
def State.readOctet (s : State) (i k m : Nat) : Except Fault Byte :=
  if m < k then s.readSrc (i + m) else .ok 0x00

/-- The three octets of the group of `k` real bytes at index `i`; the first is always real (R94). -/
def State.readOctets (s : State) (i k : Nat) : Except Fault Group := do
  let o0 ← s.readSrc i
  let o1 ← s.readOctet i k 1
  let o2 ← s.readOctet i k 2
  .ok (groupOfOctets o0 o1 o2)

/-- The four symbols of a group of `k` real bytes: padding in place of the third when `k < 2` and of the fourth
when `k < 3` (R67). -/
def symbolsOf (k : Nat) (g : Group) : List Byte :=
  [fwd (sextet0 g), fwd (sextet1 g),
    if 2 ≤ k then fwd (sextet2 g) else padChar,
    if 3 ≤ k then fwd (sextet3 g) else padChar]

/-- `4 * ceil(n / 3)`, exact (R92, R97). -/
def encodedLength (n : Nat) : Nat := 4 * ((n + 2) / 3)

/-! ### DECODE -/

/-- SEXTET of a character the operation has read (R68); outside the allowed set it is a fault (U8). -/
def readSextet (c : Byte) : Except Fault Sextet :=
  match sextetOf c with
  | some x => .ok x
  | none => .error (.inverseLookup c)

/-- The four symbols of the group at index `i`, as one group (R68, R117). -/
def State.readSymbols (s : State) (i : Nat) : Except Fault Group := do
  let c0 ← s.readSrc i
  let c1 ← s.readSrc (i + 1)
  let c2 ← s.readSrc (i + 2)
  let c3 ← s.readSrc (i + 3)
  let s0 ← readSextet c0
  let s1 ← readSextet c1
  let s2 ← readSextet c2
  let s3 ← readSextet c3
  .ok (groupOfSextets s0 s1 s2 s3)

/-- `if J < OUT_LEN then { MemWrite(DST + J, 1, b); J <- J + 1 }` (R117). -/
def State.emit (s : State) (b : Byte) : StepResult := do
  let j ← s.readReg .j
  let n ← s.readReg .outLen
  if j < n then
    let s ← s.writeDst j b
    .ok (s.setJ (j + 1))
  else .ok s

end Sys2Proof.Machine
end

