-- ==== Sys2Proof/Machine/Flags.lean ====
section
/-!
DEFINITION. The flags READY and DONE (R16), the padding flags p1 and p2 of D-LENGTH (R114), and what the host reads:
the result registers (R17 to R19, R155) and the bytes of the buffers (R47).
-/

namespace Sys2Proof.Machine

/-- READY = 1 exactly when PHASE is IDLE or DONE (R16). -/
def State.readyFlag (s : State) : Bool := s.phase.ready

/-- DONE = 1 exactly when PHASE is DONE (R16). -/
def State.doneFlag (s : State) : Bool := s.phase == .done

/-- `[c = 0x3D]` as a number (R114). -/
def padFlag (c : Byte) : Nat := if c = padChar then 1 else 0

/-- The host's read of RES_NULL; nothing while it holds no value (R17, U3). -/
def State.hostResNull (s : State) : Option Bool := s.res.map (·.null)

/-- The host's read of RES_LEN (R18, U3). -/
def State.hostResLen (s : State) : Option Nat := s.res.map (·.len)

/-- The host's read of RES_BUF: the name it is bound to, nothing where it names nothing (R19, R179). -/
def State.hostResBuf (s : State) : Option Nat := s.res.bind (·.buf)

/-- The buffer with this name among those in a list. -/
def findBuffer (name : Nat) : List NamedBuffer → Option Buffer
  | [] => none
  | d :: ds => if d.name = name then some d.buf else findBuffer name ds

/-- Every destination buffer that exists: that of the operation in progress, then those the host owns (R28). -/
def State.buffers (s : State) : List NamedBuffer := s.dst.toList ++ s.delivered

/-- The byte at index `k` of the buffer with this name; nothing where no such byte or no value is. -/
def State.byteAt (s : State) (name k : Nat) : Option Byte :=
  (findBuffer name s.buffers).bind (·.read k)

/-- The host's read of a byte of a buffer it owns (R47): only a delivered buffer can be reached (R48). -/
def State.hostByte (s : State) (name k : Nat) : Option Byte :=
  (findBuffer name s.delivered).bind (·.read k)

/-- What the host sees of a finished operation (R185): nothing while the result registers hold no value; else
`none` for a failure, or every byte of the buffer RES_BUF names together with RES_LEN. -/
def State.hostResult (s : State) : Option (Option (List (Option Byte) × Nat)) :=
  match s.res with
  | none => none
  | some r =>
    if r.null then some none
    else
      match r.buf.bind fun name => findBuffer name s.delivered with
      | some b => some (some (b.contents, r.len))
      | none => none

end Sys2Proof.Machine
end

