-- ==== Sys2Proof/Machine/DecodeOp.lean ====
section
/-!
DEFINITION. The meaning of DECODE (R110): its six steps D-CHECK, D-VALIDATE, D-LENGTH, D-ALLOC, D-GROUP, D-FINISH
(41_decode.md).
-/

namespace Sys2Proof.Machine

/-- D-CHECK (R111). -/
def decodeCheck (present : Bool) (s : State) : StepResult := do
  let n ← s.readReg .srcLen
  if !present then .ok (raiseFail .null s)
  else if n = 0 then .ok (raiseFail .empty s)
  else .ok ((s.setV 0).enter .validate)

/-- D-VALIDATE (R113): one character of the validation pass (R112). -/
def decodeValidate (s : State) : StepResult := do
  let n ← s.readReg .srcLen
  let v ← s.readReg .v
  let c ← s.readSrc v
  if !allowed c then .ok (raiseFail .char s)
  else .ok ((s.setV (v + 1)).enter (if v + 1 = n then .length else .validate))

/-- D-LENGTH (R114). -/
def decodeLength (s : State) : StepResult := do
  let n ← s.readReg .srcLen
  if n % 4 ≠ 0 then .ok (raiseFail .len4 s)
  else
    let c1 ← s.readSrc (n - 1)
    let c2 ← s.readSrc (n - 2)
    .ok ((s.setOutLen (n / 4 * 3 - padFlag c1 - padFlag c2)).enter .alloc)

/-- D-ALLOC (R116): a request of OUT_LEN bytes. -/
def decodeAlloc (s : State) : StepResult := do
  let n ← s.readReg .outLen
  .ok (s.requestBuffer n)

/-- D-GROUP (R117). -/
def decodeGroup (s : State) : StepResult := do
  let n ← s.readReg .srcLen
  let i ← s.readReg .i
  let g ← s.readSymbols i
  let s ← (s.setAcc g).emit (octet0 g)
  let s ← s.emit (octet1 g)
  let s ← s.emit (octet2 g)
  .ok ((s.setI (i + 4)).enter (if i + 4 = n then .finish else .run))

/-- D-FINISH (R118): the delivery, with no terminator. -/
def decodeFinish (s : State) : StepResult := s.publish

/-- The step of DECODE that PHASE enables (R21, R110). -/
def execDecode (present : Bool) (s : State) : Host.Outcome State Fault Refusal :=
  match s.phase with
  | .check => (decodeCheck present s).toOutcome
  | .validate => (decodeValidate s).toOutcome
  | .length => (decodeLength s).toOutcome
  | .alloc => (decodeAlloc s).toOutcome
  | .run => (decodeGroup s).toOutcome
  | .finish => (decodeFinish s).toOutcome
  | .idle => .fault (.noEnabledStep .idle)
  | .done => .fault (.noEnabledStep .done)

end Sys2Proof.Machine
end

