-- ==== Sys2Proof/Machine/EncodeOp.lean ====
section
/-!
DEFINITION. The meaning of ENCODE (R90): its five steps E-CHECK, E-LENGTH, E-ALLOC, E-GROUP, E-FINISH (40_encode.md).
-/

namespace Sys2Proof.Machine

/-- E-CHECK (R91). -/
def encodeCheck (present : Bool) (s : State) : StepResult := do
  let n ← s.readReg .srcLen
  if !present then .ok (raiseFail .null s)
  else if n = 0 then .ok (raiseFail .empty s)
  else .ok (s.enter .length)

/-- E-LENGTH (R92, D7). -/
def encodeLength (s : State) : StepResult := do
  let n ← s.readReg .srcLen
  if s.maxLen < encodedLength n + 1 then .ok (raiseFail .ovf s)
  else .ok ((s.setOutLen (encodedLength n)).enter .alloc)

/-- E-ALLOC (R93): a request of OUT_LEN + 1 bytes. -/
def encodeAlloc (s : State) : StepResult := do
  let n ← s.readReg .outLen
  .ok (s.requestBuffer (n + 1))

/-- E-GROUP (R94). -/
def encodeGroup (s : State) : StepResult := do
  let n ← s.readReg .srcLen
  let i ← s.readReg .i
  let j ← s.readReg .j
  let k := realBytes n i
  let g ← s.readOctets i k
  let s ← (s.setAcc g).writeDstBytes j (symbolsOf k g)
  .ok (((s.setI (i + k)).setJ (j + 4)).enter (if i + k = n then .finish else .run))

/-- E-FINISH (R95): the terminator, then the delivery. -/
def encodeFinish (s : State) : StepResult := do
  let j ← s.readReg .j
  let s ← s.writeDst j terminator
  s.publish

/-- The step of ENCODE that PHASE enables (R21, R90). -/
def execEncode (present : Bool) (s : State) : Host.Outcome State Fault Refusal :=
  match s.phase with
  | .check => (encodeCheck present s).toOutcome
  | .length => (encodeLength s).toOutcome
  | .alloc => (encodeAlloc s).toOutcome
  | .run => (encodeGroup s).toOutcome
  | .finish => (encodeFinish s).toOutcome
  | .idle => .fault (.noEnabledStep .idle)
  | .validate => .fault (.noEnabledStep .validate)
  | .done => .fault (.noEnabledStep .done)

end Sys2Proof.Machine
end

