-- ==== Sys2Proof/Machine/Dispatch.lean ====
section
/-!
DEFINITION. One step of an operation: each constructor of Instr and its meaning.
-/

namespace Sys2Proof.Machine

def exec (i : Instr) (s : State) : Host.Outcome State Fault Refusal :=
  match i with
  | .encode present => Sys2Proof.Machine.execEncode present s
  | .decode present => Sys2Proof.Machine.execDecode present s

end Sys2Proof.Machine
end

