-- ==== Sys2Proof/Decode.lean ====
section
/-!
DEFINITION. The decoder of command words (R72: mask 0b01, match 0b00 ENCODE, 0b01 DECODE, bit 1 CMD_PRESENT) and
its encoder. The 2-bit word is carried in one byte, bits 7 to 2 zero, where it is handed over as bytes (log 15).
-/

namespace Sys2Proof

/-- Why a list of bytes holds no command word. -/
inductive DecodeError where
  /-- There is no byte. -/
  | noByte
  /-- The byte has a bit above the two bits of CMD. -/
  | notACommandWord (b : Byte)
  deriving DecidableEq, Repr

/-- Bits of a row of the opcode table under its mask (R72). -/
def cmdMask : CmdWord := 0b01#2

def cmdMatchEncode : CmdWord := 0b00#2

def cmdMatchDecode : CmdWord := 0b01#2

/-- Every word selects an operation (R72, R73). -/
def decodeCmd (w : CmdWord) : Instr :=
  if w &&& cmdMask = cmdMatchEncode then .encode (w.getLsbD 1) else .decode (w.getLsbD 1)

/-- Reads one command word off the front of a list of bytes, or says by name why there is none. -/
def decodeBytes : List Byte → Except DecodeError (Instr × List Byte)
  | [] => .error .noByte
  | b :: rest =>
    if b.toNat < 4 then .ok (decodeCmd (b.setWidth 2), rest) else .error (.notACommandWord b)

/-- The command word of an instruction (R71, R72). -/
def encodeCmd : Instr → CmdWord
  | .encode present => BitVec.ofBool present ++ 0b0#1
  | .decode present => BitVec.ofBool present ++ 0b1#1

/-- The bytes that carry an instruction's command word. -/
def encodeBytes (i : Instr) : List Byte := [(encodeCmd i).setWidth 8]

/-- The first `n` bytes of the number `w`, the least significant first. -/
def bytesOfNat : Nat → Nat → List Byte
  | 0, _ => []
  | n + 1, w => BitVec.ofNat 8 w :: bytesOfNat n (w / 256)

/-- What the decoder reads from an instruction whose bits are `w`, numbered as spec/opcode_table.json does. -/
def decodeTableWord (nbits w : Nat) : Option Instr :=
  match decodeBytes (bytesOfNat ((nbits + 7) / 8) w) with
  | .ok (i, _) => some i
  | .error _ => none

end Sys2Proof
end

