-- ==== Sys2Proof/Machine/HostMoves.lean ====
section
/-!
DEFINITION. The moves of the host and of the environment: START (R153), RELEASE (R154), the reset event (R170, R172), and
the command the sequencer works on.
-/

namespace Sys2Proof.Machine

/-- What an accepted START writes (R153): the command word, the length and the source together; the result
registers hold no value; PHASE is CHECK. -/
def State.latch (s : State) (c : Command) : State :=
  ({ s with cmd := c.cmd, srcLen := c.len, src := c.src }.setRes none).enter .check

/-- START (R153): with READY = 0 it is not accepted and nothing changes; a host that breaks R14 or R178 has no
such move. -/
def hostStart (c : Command) (s : State) : Host.Outcome State Fault Refusal :=
  if !s.readyFlag then .next s
  else if !c.lengthFits s.lenw then .refused (.lengthWiderThanLenw c.len)
  else if !c.sourceServed then .refused .sourceShorterThanLength
  else .next (s.latch c)

/-- RELEASE (R154): the buffer no longer exists; no register of the core changes. -/
def hostRelease (name : Nat) (s : State) : Host.Outcome State Fault Refusal :=
  match findBuffer name s.delivered with
  | some _ => .next { s with delivered := s.delivered.filter fun d => d.name != name }
  | none => .refused (.releaseNotOwned name)

/-- The reset event (R170, R172): every register at its value after reset, a granted but undelivered buffer gone;
delivered buffers, the parameter LENW and the inputs still to come are not touched. -/
def resetEvent (s : State) : State :=
  { State.reset with
    lenw := s.lenw
    delivered := s.delivered
    nextName := s.nextName
    turns := s.turns
    answers := s.answers
    draws := s.draws }

/-- The operation in progress: the one CMD selects (R72); none while READY = 1 (R16, R185). -/
def State.operation (s : State) : Option Instr :=
  if s.readyFlag then none else some (decodeCmd s.cmd)

end Sys2Proof.Machine
end

