-- ==== Sys2Proof/Machine/Step.lean ====
section
/-!
DEFINITION. One step of the machine: the move of the agent whose turn it is.
-/

namespace Sys2Proof.Machine

/-- The core's turn: the enabled step of the operation in progress; in IDLE and DONE the core has none and sits
there (R185, log 6). -/
def coreTurn (s : State) : Host.Outcome State Fault Refusal :=
  match s.operation with
  | none => .next s
  | some i => exec i s

/-- One step: the next entry of `turns` moves; when there is none, the core (log 4). -/
def step (s : State) : Host.Outcome State Fault Refusal :=
  match s.turns with
  | [] => coreTurn s
  | .core :: rest => coreTurn { s with turns := rest }
  | .start c :: rest => hostStart c { s with turns := rest }
  | .release name :: rest => hostRelease name { s with turns := rest }
  | .reset :: rest => .next (resetEvent { s with turns := rest })

/-- `s` with the instruction presented and accepted, its operand words zero (SRC_LEN = 0, an empty source where
one is present), and the core to move: the very next step runs it (log 16). -/
def State.withFetchWord (s : State) (nbits w : Nat) : State :=
  match decodeTableWord nbits w with
  | none => s
  | some i =>
    let src := if (encodeCmd i).getLsbD 1 then some [] else none
    let turns := match s.turns with
      | [] => []
      | rest => .core :: rest
    { s.latch { cmd := encodeCmd i, len := 0, src := src } with turns := turns }

end Sys2Proof.Machine
end

