-- ==== Sys2Proof/Machine/Whole.lean ====
section
/-!
DEFINITION. Both operations as one function from what the host presented (R96, R119), and a run of several steps (R185).
-/

namespace Sys2Proof.Machine

/-- `k` steps, up to the first that answers no next state. -/
def runSteps : Nat → State → Host.Outcome State Fault Refusal
  | 0, s => .next s
  | k + 1, s =>
    match step s with
    | .next t => runSteps k t
    | .fault f => .fault f
    | .refused r => .refused r

/-! ### ENCODE (R96) -/

/-- The symbols of group `g` of the source bytes; a missing byte is zero (R96). -/
def groupSymbols (bytes : List Byte) (g : Nat) : List Byte :=
  symbolsOf (realBytes bytes.length (3 * g))
    (groupOfOctets (bytes.getD (3 * g) 0) (bytes.getD (3 * g + 1) 0) (bytes.getD (3 * g + 2) 0))

/-- The Base64 text of the source bytes (R96). -/
def encodeText (bytes : List Byte) : List Byte :=
  (List.range ((bytes.length + 2) / 3)).flatMap (groupSymbols bytes)

/-- ENCODE as a function of the operands and of the allocator's answer: nothing for a failure, else every byte of
DST, terminator included, and RES_LEN (R96). -/
def encodeWhole (maxLen : Nat) (present : Bool) (bytes : List Byte) (grant : Bool) : Option (List Byte × Nat) :=
  if present && decide (bytes ≠ []) && decide (encodedLength bytes.length + 1 ≤ maxLen) && grant then
    some (encodeText bytes ++ [terminator], encodedLength bytes.length)
  else none

/-! ### DECODE (R119) -/

/-- `[T[k] = '=']` (R119). -/
def padAt (text : List Byte) (k : Nat) : Nat := if text[k]? = some padChar then 1 else 0

/-- `D = 3 * (m / 4) - [T[m-1] = '='] - [T[m-2] = '=']` (R114, R119). -/
def decodedLength (text : List Byte) : Nat :=
  text.length / 4 * 3 - padAt text (text.length - 1) - padAt text (text.length - 2)

/-- SEXTET of the character at index `k`; used on texts of allowed characters only (R68). -/
def sextetAt (text : List Byte) (k : Nat) : Sextet := (sextetOf (text.getD k 0)).getD 0

/-- `A_g` (R119). -/
def decodeGroupAt (text : List Byte) (g : Nat) : Group :=
  groupOfSextets (sextetAt text (4 * g)) (sextetAt text (4 * g + 1)) (sextetAt text (4 * g + 2))
    (sextetAt text (4 * g + 3))

/-- The three octets of a group (R66). -/
def octetsOf (g : Group) : List Byte := [octet0 g, octet1 g, octet2 g]

/-- The decoded bytes: the first `D` bytes of `W` (R119). -/
def decodeText (text : List Byte) : List Byte :=
  ((List.range (text.length / 4)).flatMap fun g => octetsOf (decodeGroupAt text g)).take (decodedLength text)

/-- DECODE as a function of the operands and of the allocator's answer (R119). -/
def decodeWhole (present : Bool) (text : List Byte) (grant : Bool) : Option (List Byte × Nat) :=
  if present && decide (text ≠ []) && text.all allowed && decide (text.length % 4 = 0) && grant then
    some (decodeText text, decodedLength text)
  else none

end Sys2Proof.Machine
end

