-- ==== Sys2Proof/Safety.lean ====
section
/-!
DEFINITION. What holds in every state the machine reaches (R32 and what its rules derive), what a state shows through the
registers that hold a value, and the state that reset leaves (R170).
-/

namespace Sys2Proof.Machine

/-- Exactly the indices below `n` have been written (R51, R52: each once, ascending). -/
abbrev Buffer.filledTo (b : Buffer) (n : Nat) : Prop := b.cells.map (·.1) = List.range n

/-- The size of the buffer an operation requests: OUT_LEN + 1 for ENCODE, OUT_LEN for DECODE (R28). -/
def State.requestSize (s : State) : Nat := if s.cmdOp then s.outLen else s.outLen + 1

/-- The phases after CHECK in which the operation has not ended. -/
abbrev Phase.pastCheck (p : Phase) : Prop :=
  p = .validate ∨ p = .length ∨ p = .alloc ∨ p = .run ∨ p = .finish

/-- The phases in which OUT_LEN holds a value. -/
abbrev Phase.sized (p : Phase) : Prop := p = .alloc ∨ p = .run ∨ p = .finish

/-- The phases in which I, J and DST exist. -/
abbrev Phase.looping (p : Phase) : Prop := p = .run ∨ p = .finish

/-- The invariant of the machine: it holds at reset and every step keeps it. -/
structure State.Inv (s : State) : Prop where
  /-- LENW is at least 3 (R5). -/
  lenw_ge : Config.minLenw ≤ s.lenw
  /-- SRC_LEN fits LENW bits (R14). -/
  srcLen_le : s.srcLen ≤ s.maxLen
  /-- While an operation with a source runs, the source has SRC_LEN bytes (R178). -/
  source_held : s.readyFlag = false → s.cmdPresent = true → s.source.length = s.srcLen
  /-- Past CHECK there is a source of at least one byte (R91, R111). -/
  past_check : s.phase.pastCheck → s.cmdPresent = true ∧ 1 ≤ s.srcLen
  /-- VALIDATE: only DECODE enters it, V < SRC_LEN, and every character before V is allowed (R113). -/
  validating : s.phase = .validate →
    s.cmdOp = true ∧ s.v < s.srcLen ∧ (s.source.take s.v).all allowed = true
  /-- Past VALIDATE every character of a DECODE is allowed (R112). -/
  validated : s.phase.pastCheck → s.phase ≠ .validate → s.cmdOp = true → s.source.all allowed = true
  /-- OUT_LEN of ENCODE (R92). -/
  encode_sized : s.phase.sized → s.cmdOp = false →
    s.outLen = encodedLength s.srcLen ∧ s.outLen + 1 ≤ s.maxLen
  /-- OUT_LEN of DECODE (R114). -/
  decode_sized : s.phase.sized → s.cmdOp = true →
    s.srcLen % 4 = 0 ∧ s.outLen = decodedLength s.source
  /-- R32 (d). -/
  encode_indices : s.phase.looping → s.cmdOp = false → s.j = encodedLength s.i
  /-- R32 (e). -/
  decode_indices : s.phase.looping → s.cmdOp = true → s.j = min (3 * (s.i / 4)) s.outLen
  /-- RUN: I is below SRC_LEN and at the start of a group (R94, R117). -/
  run_index : s.phase = .run → s.i < s.srcLen ∧ s.i % (if s.cmdOp then 4 else 3) = 0
  /-- FINISH: I = SRC_LEN (R95, R118). -/
  finish_index : s.phase = .finish → s.i = s.srcLen
  /-- DST exists in RUN and FINISH only, until the operation delivers it (R28, R32 (f)). -/
  dst_exists : s.dst.isSome = true ↔ s.phase.looping
  /-- DST has the requested size, and exactly the bytes before J have been written (R51, R52, R144). -/
  dst_filled : ∀ d ∈ s.dst, d.buf.size = s.requestSize ∧ d.buf.filledTo s.j
  /-- The result registers hold a value exactly while READY = 1 (R153). -/
  res_held : s.res.isSome = s.readyFlag
  /-- IDLE is the phase that reset leaves: RES_NULL = 1, RES_LEN = 0 (R30). -/
  idle_result : s.phase = .idle → s.res = some { null := true, len := 0, buf := none }
  /-- R32 (b), and RES_LEN fits LENW bits (R18); a failure names no buffer (R146). -/
  done_result : s.phase = .done → ∀ r ∈ s.res, r.len ≤ s.maxLen ∧
    if r.null then r.len = 0 ∧ r.buf = none
    else (if s.cmdOp then 1 else 4) ≤ r.len ∧ r.buf.isSome = true
  /-- A result names a buffer of its own length, with one byte more after ENCODE, or one released since (R19, R28). -/
  result_size : s.phase = .done → ∀ r ∈ s.res, ∀ name ∈ r.buf, name < s.nextName ∧
    ∀ b ∈ findBuffer name s.delivered, b.size = if s.cmdOp then r.len else r.len + 1
  /-- Every byte of a delivered buffer has been written (R28, R48). -/
  delivered_full : ∀ d ∈ s.delivered, 1 ≤ d.buf.size ∧ d.buf.filledTo d.buf.size
  /-- Buffers are pairwise distinct, and the next grant is a new one (R54). -/
  names_distinct : (s.buffers.map (·.name)).Nodup
  names_used : ∀ d ∈ s.buffers, d.name < s.nextName

/-- The memory of the machine is in its canonical form: rising indices below the size, in every buffer. -/
abbrev State.memoryWf (s : State) : Prop := ∀ d ∈ s.buffers, d.buf.wf

/-- What reset leaves in the registers and in DST (R30, R170). That SRC, unspecified in the spec, names nothing is the
model's choice (log 7). -/
structure State.AtReset (s : State) : Prop where
  phase : s.phase = .idle
  ready : s.readyFlag = true
  done : s.doneFlag = false
  resNull : s.hostResNull = some true
  resLen : s.hostResLen = some 0
  resBuf : s.hostResBuf = none
  src : s.src = none
  noValue : ∀ r : Reg, s.readReg r = .error (.registerHoldsNoValue r)
  dst : s.dst = none

/-- The state with every register that holds no value set to zero: what a step can depend on (R10, R30). -/
def State.visible (s : State) : State :=
  { s with
    cmd := if Reg.cmd.holdsValue s.phase then s.cmd else 0
    srcLen := if Reg.srcLen.holdsValue s.phase then s.srcLen else 0
    src := if Reg.srcLen.holdsValue s.phase then s.src else none
    i := if Reg.i.holdsValue s.phase then s.i else 0
    j := if Reg.j.holdsValue s.phase then s.j else 0
    v := if Reg.v.holdsValue s.phase then s.v else 0
    outLen := if Reg.outLen.holdsValue s.phase then s.outLen else 0
    acc := if Reg.acc.holdsValue s.phase then s.acc else 0 }

/-- What an outcome shows through the registers that hold a value. -/
def visibleOutcome : Host.Outcome State Fault Refusal → Host.Outcome State Fault Refusal
  | .next s => .next s.visible
  | .fault f => .fault f
  | .refused r => .refused r

/-- The steps ENCODE takes from CHECK to DONE (R100, R183). -/
def encodeSteps (s : State) : Nat :=
  if s.cmdPresent = false ∨ s.srcLen = 0 then 1
  else if s.maxLen < encodedLength s.srcLen + 1 then 2
  else if s.draw.1 = false then 3
  else 4 + (s.srcLen + 2) / 3

/-- The steps DECODE takes from CHECK to DONE; `p` is the index of the first character that is not allowed
(R123, R184). -/
def decodeSteps (s : State) : Nat :=
  let p := s.source.findIdx fun c => !allowed c
  if s.cmdPresent = false ∨ s.srcLen = 0 then 1
  else if p < s.srcLen then 2 + p
  else if s.srcLen % 4 ≠ 0 then 2 + s.srcLen
  else if s.draw.1 = false then 3 + s.srcLen
  else 4 + s.srcLen + s.srcLen / 4

end Sys2Proof.Machine
end

