-- ==== Sys2Proof/Certificates/Slice0/Obligations.lean ====
section
/-!
DEFINITION. The statements for the provers, in the order of the spec's files: tables and encodings, reset and the host's
moves, ENCODE, DECODE, the allocator and failures, the invariant, whole operations.
-/

open Sys2Proof Sys2Proof.Machine

/-! ### Tables and encodings (30_encoding.md) -/

/-- R63: FWD holds the ASCII codes of A to Z, a to z, 0 to 9, + and /, in this order. -/
def Obligations.ForwardTableIsTheAlphabet : Prop :=
  ∀ v : Sextet, (fwd v).toNat =
    if v.toNat < 26 then 0x41 + v.toNat
    else if v.toNat < 52 then 0x61 + (v.toNat - 26)
    else if v.toNat < 62 then 0x30 + (v.toNat - 52)
    else if v.toNat = 62 then 0x2B else 0x2F

/-- R64: INV has exactly the 80 entries 0 to 79; the entry at index x is the sentinel at the 16 indices listed, and
elsewhere the value of the alphabet character with code x + 43. -/
def Obligations.InverseTableIsTheAlphabetValues : Prop :=
  (∀ x, 80 ≤ x → inv x = none) ∧
  ∀ x, x < 80 → ∃ e : Byte, inv x = some e ∧
    if x ∈ [1, 2, 3, 15, 16, 17, 18, 19, 20, 21, 48, 49, 50, 51, 52, 53] then e = 255
    else ∃ v : Sextet, e.toNat = v.toNat ∧ (fwd v).toNat = x + 43

/-- R77: the two tables are inverse to each other on the alphabet; 64 entries of INV are no sentinel and they are
pairwise different. -/
def Obligations.TablesAreInverse : Prop :=
  (∀ v : Sextet, inv ((fwd v).toNat - 43) = some (v.setWidth 8)) ∧
  (∀ (x : Nat) (e : Byte), inv x = some e → e ≠ 255 → (fwd (e.setWidth 6)).toNat = x + 43) ∧
  (invList.filter fun e => e != 255).length = 64 ∧ (invList.filter fun e => e != 255).Nodup

/-- R70: the allowed set is the 65 byte values of A to Z, a to z, 0 to 9, +, / and =. -/
def Obligations.AllowedSetIsTheListedCodes : Prop :=
  (∀ c : Byte, allowed c = true ↔
    c = 0x3D ∨ c = 0x2B ∨ c = 0x2F ∨ (0x30 ≤ c.toNat ∧ c.toNat ≤ 0x39) ∨
      (0x41 ≤ c.toNat ∧ c.toNat ≤ 0x5A) ∨ (0x61 ≤ c.toNat ∧ c.toNat ≤ 0x7A)) ∧
  ((List.range 256).filter fun n => allowed (BitVec.ofNat 8 n)).length = 65

/-- R68, first part: SEXTET(c) is 0 for `=`, else INV[c - 43] as 6 bits, and is defined on the allowed set only. -/
def Obligations.SextetIsTheInverseTableOnTheAllowedSet : Prop :=
  sextetOf 0x3D = some 0 ∧
  (∀ c : Byte, allowed c = false → sextetOf c = none) ∧
  ∀ c : Byte, allowed c = true → c ≠ 0x3D →
    ∃ e : Byte, inv (c.toNat - 43) = some e ∧ e.toNat ≤ 63 ∧ sextetOf c = some (e.setWidth 6)

/-- R66: the octets and the sextets of a group in terms of each other. -/
def Obligations.GroupViewsAgree : Prop :=
  (∀ o0 o1 o2 : Byte, ∀ g : Group, g = groupOfOctets o0 o1 o2 →
    g = o0 ++ o1 ++ o2 ∧ octet0 g = o0 ∧ octet1 g = o1 ∧ octet2 g = o2 ∧
    sextet0 g = o0.extractLsb' 2 6 ∧ sextet1 g = o0.extractLsb' 0 2 ++ o1.extractLsb' 4 4 ∧
    sextet2 g = o1.extractLsb' 0 4 ++ o2.extractLsb' 6 2 ∧ sextet3 g = o2.extractLsb' 0 6) ∧
  ∀ s0 s1 s2 s3 : Sextet, ∀ g : Group, g = groupOfSextets s0 s1 s2 s3 →
    g = s0 ++ s1 ++ s2 ++ s3 ∧ sextet0 g = s0 ∧ sextet1 g = s1 ∧ sextet2 g = s2 ∧ sextet3 g = s3 ∧
    octet0 g = s0 ++ s1.extractLsb' 4 2 ∧ octet1 g = s1.extractLsb' 0 4 ++ s2.extractLsb' 2 4 ∧
    octet2 g = s2.extractLsb' 0 2 ++ s3

/-- R72: the opcode map, all four words, and the byte that carries each; a byte with a bit above bit 1 is refused, and
so is no byte (the byte is the model's, log 15). -/
def Obligations.CommandWordsDecodeAsListed : Prop :=
  decodeCmd 0b00#2 = .encode false ∧ decodeCmd 0b10#2 = .encode true ∧
  decodeCmd 0b01#2 = .decode false ∧ decodeCmd 0b11#2 = .decode true ∧
  decodeTableWord 8 0b00 = some (.encode false) ∧ decodeTableWord 8 0b10 = some (.encode true) ∧
  decodeTableWord 8 0b01 = some (.decode false) ∧ decodeTableWord 8 0b11 = some (.decode true) ∧
  (∀ (b : Byte) (rest : List Byte), 4 ≤ b.toNat → decodeBytes (b :: rest) = .error (.notACommandWord b)) ∧
  decodeBytes [] = .error .noByte

/-- Every instruction's word decodes to it, and every word is the word of its instruction: no bit is dropped. The third
clause, on bytes, is about the byte that carries the word, the model's choice (log 15). -/
def Obligations.CommandWordsRoundTrip : Prop :=
  (∀ i : Instr, decodeCmd (encodeCmd i) = i) ∧ (∀ w : CmdWord, encodeCmd (decodeCmd w) = w) ∧
  ∀ (i : Instr) (rest : List Byte), decodeBytes (encodeBytes i ++ rest) = .ok (i, rest)

/-! ### Reset, flags, the step, the host's moves (10_state.md, 60_exceptions.md, 70_reset_and_hazards.md) -/

/-- R170: what reset leaves, at power-on and by the reset event. That no buffer at all exists holds at power-on; a
later reset event leaves those delivered before (R172) and ends that of the operation (`AtReset.dst`, log 12). The spec
leaves SRC unspecified; that it stores nothing (`AtReset.src`) is the model's choice (log 7). -/
def Obligations.ResetLeavesTheSpecState : Prop :=
  State.reset.AtReset ∧ State.reset.buffers = [] ∧ ∀ s : State, (resetEvent s).AtReset

/-- R172: reset in any phase abandons the operation; the buffer granted and not delivered is gone, those delivered
before are not touched, nor is the parameter LENW (log 2, log 12). That SRC stores nothing afterwards is the model's
choice (log 7), and so is the schedule of turns (log 4). -/
def Obligations.ResetAbandonsTheOperation : Prop :=
  ∀ (s : State) (rest : List Turn), s.turns = .reset :: rest →
    ∃ t, step s = .next t ∧ t.AtReset ∧ t.buffers = s.delivered ∧ t.lenw = s.lenw ∧ t.turns = rest ∧
      ∀ name k, t.hostByte name k = s.hostByte name k

/-- R16: READY and DONE are functions of PHASE. -/
def Obligations.ReadyAndDoneFollowPhase : Prop :=
  ∀ s : State, (s.readyFlag = true ↔ s.phase = .idle ∨ s.phase = .done) ∧ (s.doneFlag = true ↔ s.phase = .done)

/-- While an operation is in progress the core's turn is the step of the instruction that the latched command word
decodes to; `turns` (the model's, log 4) is consumed by one and nothing else stands around exec. -/
def Obligations.StepRunsTheLatchedInstruction : Prop :=
  ∀ (s : State) (i : Instr), s.readyFlag = false → decodeBytes [s.cmd.setWidth 8] = .ok (i, []) →
    (s.turns = [] → step s = exec i s) ∧
    ∀ rest, s.turns = .core :: rest → step s = exec i { s with turns := rest }

/-- R185: the core has no enabled step in IDLE and DONE; on its turn it sits there. -/
def Obligations.CoreSitsInIdleAndDone : Prop :=
  ∀ s : State, s.readyFlag = true →
    (s.turns = [] → step s = .next s) ∧ ∀ rest, s.turns = .core :: rest → step s = .next { s with turns := rest }

/-- R153: START with READY = 1 latches everything at once; with READY = 0 it has no effect. -/
def Obligations.StartLatchesOnlyWhenReady : Prop :=
  ∀ (s : State) (c : Command) (rest : List Turn), s.turns = .start c :: rest →
    (s.readyFlag = true → c.wf s.lenw = true →
      ∃ t, step s = .next t ∧
        t = { s with
              turns := rest, cmd := c.cmd, srcLen := c.len, src := c.src, res := none, phase := .check } ∧
        t.readyFlag = false ∧ t.doneFlag = false ∧
        t.hostResNull = none ∧ t.hostResLen = none ∧ t.hostResBuf = none) ∧
    (s.readyFlag = false → step s = .next { s with turns := rest })

/-- The moves the host of the spec does not have: a length wider than LENW (R14), a source shorter than SRC_LEN
(R178). That the model refuses them by these names is its choice (log 10). -/
def Obligations.StartOutsideTheHostDutiesIsRefused : Prop :=
  ∀ (s : State) (c : Command) (rest : List Turn), s.turns = .start c :: rest → s.readyFlag = true →
    (2 ^ s.lenw ≤ c.len → step s = .refused (.lengthWiderThanLenw c.len)) ∧
    (c.len < 2 ^ s.lenw → c.cmd.getLsbD 1 = true → (∀ bytes, c.src = some bytes → bytes.length < c.len) →
      step s = .refused .sourceShorterThanLength)

/-- R154: after RELEASE the buffer no longer exists, and no register of the core changes. -/
def Obligations.ReleaseEndsTheBuffer : Prop :=
  ∀ (s : State) (name : Nat) (b : Buffer) (rest : List Turn), s.turns = .release name :: rest →
    findBuffer name s.delivered = some b →
    ∃ t, step s = .next t ∧ t = { s with turns := rest, delivered := t.delivered } ∧
      (∀ k, t.hostByte name k = none) ∧ (∀ d ∈ t.delivered, d ∈ s.delivered ∧ d.name ≠ name) ∧
      ∀ other k, other ≠ name → t.hostByte other k = s.hostByte other k

/-- A RELEASE of a buffer the host does not own, or has released, is no move of the host (R180; refused by the model
under this name, log 11). -/
def Obligations.ReleaseOfANameNotOwnedIsRefused : Prop :=
  ∀ (s : State) (name : Nat) (rest : List Turn), s.turns = .release name :: rest →
    (∀ d ∈ s.delivered, d.name ≠ name) → step s = .refused (.releaseNotOwned name)

/-- R148: a failure, or any earlier result, does not change what an accepted START leaves. -/
def Obligations.EarlierResultDoesNotReachTheNextOperation : Prop :=
  ∀ (s : State) (c : Command) (rest : List Turn) (r : Option Results), s.turns = .start c :: rest →
    s.readyFlag = true → c.wf s.lenw = true → ∃ t, step s = .next t ∧ step { s with res := r } = .next t

/-! ### ENCODE, step by step (40_encode.md) -/

/-- R91. -/
def Obligations.EncodeCheckStep : Prop :=
  ∀ (present : Bool) (s : State), s.phase = .check →
    exec (.encode present) s = .next
      (if present = false ∨ s.srcLen = 0 then
        { s with res := some { null := true, len := 0, buf := none }, phase := .done }
      else { s with phase := .length })

/-- R92: exact arithmetic of at most LENW + 1 bits, the size test, and the bound it amounts to for every LENW. -/
def Obligations.EncodeLengthStep : Prop :=
  (∀ (present : Bool) (s : State), s.phase = .length →
    exec (.encode present) s = .next
      (if 2 ^ s.lenw - 1 < 4 * ((s.srcLen + 2) / 3) + 1 then
        { s with res := some { null := true, len := 0, buf := none }, phase := .done }
      else { s with outLen := 4 * ((s.srcLen + 2) / 3), phase := .alloc })) ∧
  (∀ lenw n : Nat, 3 ≤ lenw → n < 2 ^ lenw → 4 * ((n + 2) / 3) < 2 ^ (lenw + 1)) ∧
  (∀ lenw n : Nat, 3 ≤ lenw →
    (2 ^ lenw - 1 < 4 * ((n + 2) / 3) + 1 ↔ 3 * ((2 ^ lenw - 1 - 1) / 4) < n)) ∧
  ∀ n : Nat, 2 ^ 32 - 1 < 4 * ((n + 2) / 3) + 1 ↔ 3221225469 < n

/-- R93: one request of OUT_LEN + 1 bytes; a grant starts the loop, a denial fails. -/
def Obligations.EncodeAllocStep : Prop :=
  ∀ (present : Bool) (s : State), s.phase = .alloc →
    exec (.encode present) s = .next
      (if s.draw.1 = true then
        { s.draw.2 with
          dst := some { name := s.nextName, buf := { size := s.outLen + 1, cells := [] } }
          nextName := s.nextName + 1, i := 0, j := 0, phase := .run }
      else { s.draw.2 with res := some { null := true, len := 0, buf := none }, phase := .done })

/-- R94 with R67: one group, for every number of real bytes; the premises hold whenever the invariant does. -/
def Obligations.EncodeGroupStep : Prop :=
  (∀ s : State, s.Inv → s.phase = .run → s.cmdOp = false →
    s.i < s.srcLen ∧ s.source.length = s.srcLen ∧ ∃ d, s.dst = some d ∧ s.j + 4 ≤ d.buf.size) ∧
  ∀ (present : Bool) (s : State) (d : NamedBuffer), s.phase = .run → s.i < s.srcLen →
    s.source.length = s.srcLen → s.dst = some d → s.j + 4 ≤ d.buf.size →
    let k := min 3 (s.srcLen - s.i)
    let o0 : Byte := s.source.getD s.i 0
    let o1 : Byte := if 2 ≤ k then s.source.getD (s.i + 1) 0 else 0x00
    let o2 : Byte := if 3 ≤ k then s.source.getD (s.i + 2) 0 else 0x00
    let g : Group := o0 ++ o1 ++ o2
    let b0 := fwd (g.extractLsb' 18 6)
    let b1 := fwd (g.extractLsb' 12 6)
    let b2 := if 2 ≤ k then fwd (g.extractLsb' 6 6) else 0x3D
    let b3 := if 3 ≤ k then fwd (g.extractLsb' 0 6) else 0x3D
    exec (.encode present) s = .next
      { s with
        acc := g
        dst := some { d with
          buf := (((d.buf.write s.j b0).write (s.j + 1) b1).write (s.j + 2) b2).write (s.j + 3) b3 }
        i := s.i + k
        j := s.j + 4
        phase := if s.i + k = s.srcLen then .finish else .run }

/-- R95: the terminator at index J, then the delivery; in every state that meets the invariant I = SRC_LEN and
J = OUT_LEN here, and J is the last index of DST. -/
def Obligations.EncodeFinishStep : Prop :=
  (∀ s : State, s.Inv → s.phase = .finish → s.cmdOp = false →
    s.i = s.srcLen ∧ s.j = s.outLen ∧ ∃ d, s.dst = some d ∧ d.buf.size = s.j + 1) ∧
  ∀ (present : Bool) (s : State) (d : NamedBuffer), s.phase = .finish → s.dst = some d → s.j < d.buf.size →
    ∃ t, exec (.encode present) s = .next t ∧
      t = { s with
            delivered := { d with buf := d.buf.write s.j 0x00 } :: s.delivered
            dst := none
            res := some { null := false, len := s.outLen, buf := some d.name }
            phase := .done }

/-- What a step of ENCODE leaves unchanged (R102), in every state that meets the invariant. The bytes stored to are
those at the indices J to J + 3 of DST in RUN and at J in FINISH. -/
def Obligations.EncodeFrame : Prop :=
  ∀ (present : Bool) (s t : State), s.Inv → exec (.encode present) s = .next t →
    t.lenw = s.lenw ∧ t.cmd = s.cmd ∧ t.srcLen = s.srcLen ∧ t.src = s.src ∧ t.source = s.source ∧
    t.v = s.v ∧ t.turns = s.turns ∧
    (s.phase ≠ .alloc → t.answers = s.answers ∧ t.draws = s.draws ∧ t.nextName = s.nextName) ∧
    (s.phase ≠ .alloc → s.phase ≠ .run → t.i = s.i ∧ t.j = s.j) ∧
    (s.phase ≠ .length → t.outLen = s.outLen) ∧ (s.phase ≠ .run → t.acc = s.acc) ∧
    (t.phase ≠ .done → t.res = s.res) ∧ (s.phase ≠ .finish → t.delivered = s.delivered) ∧
    ∀ name k,
      (∀ d, s.dst = some d → name = d.name →
        (s.phase = .run → k < s.j ∨ s.j + 4 ≤ k) ∧ (s.phase = .finish → k ≠ s.j)) →
      t.byteAt name k = s.byteAt name k

/-- R97: `4 * ceil(n / 3)` is exact, a positive multiple of 4 for n >= 1, with the source's values. -/
def Obligations.EncodedLengthIsExact : Prop :=
  (∀ n, 1 ≤ n → ∃ c, encodedLength n = 4 * c ∧ 1 ≤ c ∧ n ≤ 3 * c ∧ 3 * c < n + 3) ∧
  encodedLength 1 = 4 ∧ encodedLength 2 = 4 ∧ encodedLength 3 = 4 ∧ encodedLength 4 = 8

/-- R98, R69: `=` stands exactly in the last 2, 1 or 0 places for lengths 1, 2, 0 mod 3; every symbol is allowed and
has bit 7 clear. -/
def Obligations.PaddingStandsOnlyAtTheEnd : Prop :=
  ∀ bytes : List Byte, bytes ≠ [] →
    (encodeText bytes).length = encodedLength bytes.length ∧
    (∀ k, k < (encodeText bytes).length →
      ((encodeText bytes)[k]? = some 0x3D ↔ (encodeText bytes).length ≤ k + (3 - bytes.length % 3) % 3)) ∧
    ∀ c ∈ encodeText bytes, allowed c = true ∧ c.toNat < 128

/-! ### DECODE, step by step (41_decode.md) -/

/-- R111. -/
def Obligations.DecodeCheckStep : Prop :=
  ∀ (present : Bool) (s : State), s.phase = .check →
    exec (.decode present) s = .next
      (if present = false ∨ s.srcLen = 0 then
        { s with res := some { null := true, len := 0, buf := none }, phase := .done }
      else { s with v := 0, phase := .validate })

/-- R113: one character of the validation pass; only DECODE is in this phase, and the premises hold whenever the
invariant does. -/
def Obligations.DecodeValidateStep : Prop :=
  (∀ s : State, s.Inv → s.phase = .validate →
    s.cmdOp = true ∧ s.v < s.srcLen ∧ s.source.length = s.srcLen) ∧
  ∀ (present : Bool) (s : State), s.phase = .validate → s.v < s.srcLen → s.source.length = s.srcLen →
    exec (.decode present) s = .next
      (if allowed (s.source.getD s.v 0) = true then
        { s with v := s.v + 1, phase := if s.v + 1 = s.srcLen then .length else .validate }
      else { s with res := some { null := true, len := 0, buf := none }, phase := .done })

/-- R114: the length check, then the output length from the last two characters, each tested on its own. -/
def Obligations.DecodeLengthStep : Prop :=
  ∀ (present : Bool) (s : State), s.phase = .length → 1 ≤ s.srcLen → s.source.length = s.srcLen →
    exec (.decode present) s = .next
      (if s.srcLen % 4 ≠ 0 then
        { s with res := some { null := true, len := 0, buf := none }, phase := .done }
      else
        { s with
          outLen := s.srcLen / 4 * 3 - (if s.source.getD (s.srcLen - 1) 0 = 0x3D then 1 else 0) -
            (if s.source.getD (s.srcLen - 2) 0 = 0x3D then 1 else 0)
          phase := .alloc })

/-- R115: the output length of DECODE is never 0 and is below SRC_LEN, so it always fits a length register. -/
def Obligations.DecodeOutputLengthIsInRange : Prop :=
  ∀ (present : Bool) (s t : State), s.Inv → s.phase = .length → exec (.decode present) s = .next t →
    t.phase = .alloc →
    1 ≤ s.srcLen / 4 ∧ 1 ≤ t.outLen ∧ t.outLen ≤ 3 * (s.srcLen / 4) ∧ 3 * (s.srcLen / 4) ≤ t.outLen + 2 ∧
      3 * (s.srcLen / 4) < s.srcLen ∧ s.srcLen ≤ s.maxLen

/-- R116: one request of OUT_LEN bytes. -/
def Obligations.DecodeAllocStep : Prop :=
  ∀ (present : Bool) (s : State), s.phase = .alloc →
    exec (.decode present) s = .next
      (if s.draw.1 = true then
        { s.draw.2 with
          dst := some { name := s.nextName, buf := { size := s.outLen, cells := [] } }
          nextName := s.nextName + 1, i := 0, j := 0, phase := .run }
      else { s.draw.2 with res := some { null := true, len := 0, buf := none }, phase := .done })

/-- R117: one group; a byte is written only while J is below OUT_LEN, whatever the symbols are; the premises hold
whenever the invariant does. -/
def Obligations.DecodeGroupStep : Prop :=
  (∀ s : State, s.Inv → s.phase = .run → s.cmdOp = true →
    s.i < s.srcLen ∧ s.i % 4 = 0 ∧ s.i + 4 ≤ s.srcLen ∧ s.source.length = s.srcLen ∧
    (∃ d, s.dst = some d ∧ s.outLen ≤ d.buf.size) ∧
    ∀ k, k < s.srcLen → ∃ x, sextetOf (s.source.getD k 0) = some x) ∧
  ∀ (present : Bool) (s : State) (d : NamedBuffer) (x0 x1 x2 x3 : Sextet), s.phase = .run →
    s.i + 4 ≤ s.srcLen → s.source.length = s.srcLen → s.dst = some d → s.outLen ≤ d.buf.size →
    sextetOf (s.source.getD s.i 0) = some x0 → sextetOf (s.source.getD (s.i + 1) 0) = some x1 →
    sextetOf (s.source.getD (s.i + 2) 0) = some x2 → sextetOf (s.source.getD (s.i + 3) 0) = some x3 →
    let g : Group := x0 ++ x1 ++ x2 ++ x3
    let d1 := if s.j < s.outLen then d.buf.write s.j (g.extractLsb' 16 8) else d.buf
    let d2 := if s.j + 1 < s.outLen then d1.write (s.j + 1) (g.extractLsb' 8 8) else d1
    let d3 := if s.j + 2 < s.outLen then d2.write (s.j + 2) (g.extractLsb' 0 8) else d2
    exec (.decode present) s = .next
      { s with
        acc := g
        dst := some { d with buf := d3 }
        j := s.j + min 3 (s.outLen - s.j)
        i := s.i + 4
        phase := if s.i + 4 = s.srcLen then .finish else .run }

/-- R118: the delivery, with no terminator; in every state that meets the invariant I = SRC_LEN and J = OUT_LEN
here. -/
def Obligations.DecodeFinishStep : Prop :=
  (∀ s : State, s.Inv → s.phase = .finish → s.cmdOp = true →
    s.i = s.srcLen ∧ s.j = s.outLen ∧ ∃ d, s.dst = some d ∧ d.buf.size = s.j) ∧
  ∀ (present : Bool) (s : State) (d : NamedBuffer), s.phase = .finish → s.dst = some d →
    ∃ t, exec (.decode present) s = .next t ∧
      t = { s with
            delivered := d :: s.delivered
            dst := none
            res := some { null := false, len := s.outLen, buf := some d.name }
            phase := .done }

/-- What a step of DECODE leaves unchanged (R126). The bytes stored to are those at the indices from J, below
OUT_LEN and below J + 3, of DST in RUN. -/
def Obligations.DecodeFrame : Prop :=
  ∀ (present : Bool) (s t : State), s.Inv → exec (.decode present) s = .next t →
    t.lenw = s.lenw ∧ t.cmd = s.cmd ∧ t.srcLen = s.srcLen ∧ t.src = s.src ∧ t.source = s.source ∧
    t.turns = s.turns ∧
    (s.phase ≠ .check → s.phase ≠ .validate → t.v = s.v) ∧
    (s.phase ≠ .alloc → t.answers = s.answers ∧ t.draws = s.draws ∧ t.nextName = s.nextName) ∧
    (s.phase ≠ .alloc → s.phase ≠ .run → t.i = s.i ∧ t.j = s.j) ∧
    (s.phase ≠ .length → t.outLen = s.outLen) ∧ (s.phase ≠ .run → t.acc = s.acc) ∧
    (t.phase ≠ .done → t.res = s.res) ∧ (s.phase ≠ .finish → t.delivered = s.delivered) ∧
    ∀ name k,
      (∀ d, s.dst = some d → name = d.name → s.phase = .run → k < s.j ∨ min (s.j + 3) s.outLen ≤ k) →
      t.byteAt name k = s.byteAt name k

/-- R121: in the group pass `=` behaves exactly like the character `A`; before the last two places, where it does
not count for the length, it may be replaced by `A` without changing a byte. -/
def Obligations.InteriorPaddingActsAsTheCharacterA : Prop :=
  ∀ text : List Byte, text.all allowed = true →
    decodeText ((text.take (text.length - 2)).map (fun c => if c = 0x3D then 0x41 else c) ++
      text.drop (text.length - 2)) = decodeText text

/-- R21, R113, R185: ENCODE has no step in IDLE, VALIDATE and DONE, DECODE none in IDLE and DONE; asked for one, the
meaning stops by name. No step of the machine asks. -/
def Obligations.NoStepOutsideTheOperationsPhases : Prop :=
  ∀ (present : Bool) (s : State),
    (s.phase = .idle ∨ s.phase = .validate ∨ s.phase = .done →
      exec (.encode present) s = .fault (.noEnabledStep s.phase)) ∧
    (s.phase = .idle ∨ s.phase = .done → exec (.decode present) s = .fault (.noEnabledStep s.phase))

/-! ### The allocator and failures (60_exceptions.md) -/

/-- R144: either answer is admitted at every request; a grant is a buffer of exactly the size asked for, whose bytes
hold no value, distinct from every buffer there is; a denial changes nothing else. The lists of answers and the
constant behind them are the model's form of the draw (log 5). -/
def Obligations.AllocatorAnswersFreelyWithFreshBuffers : Prop :=
  (∀ (s : State) (g : Bool), { s with answers := g :: s.answers }.draw = (g, s)) ∧
  (∀ s : State, s.answers = [] → s.draw = (Config.allocatorAnswer s.draws, { s with draws := s.draws + 1 })) ∧
  (∀ (s : State) (n : Nat), s.Inv → s.draw.1 = true →
    ∃ d, (s.requestBuffer n).dst = some d ∧ d.buf.size = n ∧ (∀ k, d.buf.read k = none) ∧
      (∀ e ∈ s.buffers, e.name ≠ d.name) ∧ (s.requestBuffer n).delivered = s.delivered) ∧
  ∀ (s : State) (n : Nat), s.draw.1 = false →
    (s.requestBuffer n).buffers = s.buffers ∧ (s.requestBuffer n).nextName = s.nextName

/-- R146, R147, R143: a step that ends an operation with RES_NULL = 1 writes the result registers and PHASE (and
takes the allocator's answer, if it is the ALLOC step), no byte of any buffer; no destination buffer exists
afterwards; the cause leaves no trace. -/
def Obligations.FailureEntryWritesOnlyTheResult : Prop :=
  (∀ (cause : FailCause) (s : State),
    raiseFail cause s = { s with res := some { null := true, len := 0, buf := none }, phase := .done }) ∧
  ∀ s t : State, s.Inv → s.readyFlag = false → coreTurn s = .next t → t.hostResNull = some true →
    t = { s with
          res := some { null := true, len := 0, buf := none }
          phase := .done
          answers := if s.phase = .alloc then s.draw.2.answers else s.answers
          draws := if s.phase = .alloc then s.draw.2.draws else s.draws } ∧
      t.dst = none ∧ t.buffers = s.buffers

/-! ### The invariant and what it gives (10_state.md, 20_memory.md) -/

def Obligations.ResetMeetsTheInvariant : Prop := State.reset.Inv

/-- Every step, whoever moves, keeps the invariant. -/
def Obligations.EveryStepKeepsTheInvariant : Prop :=
  ∀ s t : State, s.Inv → step s = .next t → t.Inv

/-- R32, (a) to (e), and of (f) what it says of the operation in progress, in every state that meets the invariant. A
buffer once delivered stands in `delivered` and no longer in `dst` (the model's form, log 13); the half of (f) about it
is `SuccessfulBufferExistsUntilRelease`. -/
def Obligations.InvariantGivesTheSpecsBounds : Prop :=
  ∀ s : State, s.Inv →
    (s.readyFlag = true ↔ s.phase = .idle ∨ s.phase = .done) ∧
    (s.phase = .done → s.hostResNull = some true → s.hostResLen = some 0 ∧ s.hostResBuf = none) ∧
    (s.phase = .done → s.hostResNull = some false →
      ∃ n, s.hostResLen = some n ∧ (s.cmdOp = false → 4 ≤ n) ∧ 1 ≤ n) ∧
    (s.phase = .run ∨ s.phase = .finish → s.i ≤ s.srcLen ∧ s.j ≤ s.outLen) ∧
    (s.phase = .run ∨ s.phase = .finish → s.cmdOp = false → s.j = 4 * ((s.i + 2) / 3)) ∧
    (s.phase = .run ∨ s.phase = .finish → s.cmdOp = true → s.i % 4 = 0 ∧ s.j = min (3 * s.i / 4) s.outLen) ∧
    (s.dst.isSome = true ↔ s.phase = .run ∨ s.phase = .finish)

/-- A register that can be read fits its LENW bits, so no index or length ever wraps (R14, R18, R97, R120). -/
def Obligations.LengthRegistersFitTheirWidth : Prop :=
  ∀ s : State, s.Inv →
    (∀ (r : Reg) (n : Nat), r ≠ .cmd → s.readReg r = .ok n → n < 2 ^ s.lenw) ∧
    ∀ n, s.hostResLen = some n → n < 2 ^ s.lenw

/-- R53, R30: on the core's turn a state that meets the invariant always has a next state: no read of SRC and no
write of DST is out of range, no look-up leaves its table, no register is read that holds no value; and no step of
anyone faults. -/
def Obligations.NoStepFaultsUnderTheInvariant : Prop :=
  ∀ s : State, s.Inv → (∃ t, coreTurn s = .next t) ∧ ∀ f, step s ≠ .fault f

/-- R28, R47 (b): every byte of a buffer the host owns holds a value and can be read; when an operation has
succeeded, the buffer RES_BUF names, unless released, has RES_LEN bytes, and one more after ENCODE. -/
def Obligations.DeliveredBuffersAreFullyWritten : Prop :=
  ∀ s : State, s.Inv →
    (∀ d ∈ s.delivered, ∀ k, k < d.buf.size → ∃ b, s.hostByte d.name k = some b) ∧
    ∀ name n b, s.phase = .done → s.hostResBuf = some name → s.hostResLen = some n →
      findBuffer name s.delivered = some b → b.size = if s.cmdOp then n else n + 1

/-- The canonical form of memory is kept by every step, from every state that has it. -/
def Obligations.EveryStepKeepsMemoryCanonical : Prop :=
  ∀ s t : State, s.memoryWf → step s = .next t → t.memoryWf

/-- R10, R30: no step depends on a register in a phase in which it holds no value: what a step shows is the same
whatever such registers store. -/
def Obligations.NoStepUsesARegisterWithoutAValue : Prop :=
  ∀ s : State, visibleOutcome (step s) = visibleOutcome (step s.visible)

/-- R5, R31: LENW is a parameter: no step of anyone changes it. That the reset state takes the default, 32, is the
model's choice (log 2). -/
def Obligations.NoStepChangesTheParameter : Prop :=
  State.reset.lenw = 32 ∧ ∀ s t : State, step s = .next t → t.lenw = s.lenw

/-! ### Whole operations (R96, R100, R119, R123, R125, R145, R151) -/

/-- R96, R100: from CHECK, ENCODE reaches DONE in exactly the number of steps of R100 with the result of R96; the
buffers delivered before are not touched, and a failure delivers none. -/
def Obligations.EncodeRunIsTheWholeFunction : Prop :=
  ∀ s : State, s.Inv → s.phase = .check → s.cmdOp = false → s.turns = [] →
    (∀ k u, k < encodeSteps s → runSteps k s = .next u → u.phase ≠ .done) ∧
    ∃ t, runSteps (encodeSteps s) s = .next t ∧ t.phase = .done ∧
      t.hostResult =
        some ((encodeWhole s.maxLen s.cmdPresent s.source s.draw.1).map fun r => (r.1.map some, r.2)) ∧
      t.delivered.drop (t.delivered.length - s.delivered.length) = s.delivered ∧
      (t.hostResNull = some true → t.delivered = s.delivered)

/-- R119, R123: the same for DECODE; the validation pass stops at the first character that is not allowed. -/
def Obligations.DecodeRunIsTheWholeFunction : Prop :=
  ∀ s : State, s.Inv → s.phase = .check → s.cmdOp = true → s.turns = [] →
    (∀ k u, k < decodeSteps s → runSteps k s = .next u → u.phase ≠ .done) ∧
    ∃ t, runSteps (decodeSteps s) s = .next t ∧ t.phase = .done ∧
      t.hostResult =
        some ((decodeWhole s.cmdPresent s.source s.draw.1).map fun r => (r.1.map some, r.2)) ∧
      t.delivered.drop (t.delivered.length - s.delivered.length) = s.delivered ∧
      (t.hostResNull = some true → t.delivered = s.delivered)

/-- R145: the allocator is asked only when every other test has passed, and then once. That its coming answers stand
in the state as a list with a counter is the model's form of the draw (log 5). -/
def Obligations.AllocatorIsAskedLastAndOnce : Prop :=
  (∀ s : State, s.Inv → s.phase = .check → s.cmdOp = false → s.turns = [] →
    ∃ t, runSteps (encodeSteps s) s = .next t ∧ t.phase = .done ∧
      if s.cmdPresent = false ∨ s.srcLen = 0 ∨ s.maxLen < encodedLength s.srcLen + 1 then
        t.answers = s.answers ∧ t.draws = s.draws
      else t.answers = s.draw.2.answers ∧ t.draws = s.draw.2.draws) ∧
  ∀ s : State, s.Inv → s.phase = .check → s.cmdOp = true → s.turns = [] →
    ∃ t, runSteps (decodeSteps s) s = .next t ∧ t.phase = .done ∧
      if s.cmdPresent = false ∨ s.srcLen = 0 ∨ s.source.all allowed = false ∨ s.srcLen % 4 ≠ 0 then
        t.answers = s.answers ∧ t.draws = s.draws
      else t.answers = s.draw.2.answers ∧ t.draws = s.draw.2.draws

/-- R151: an operation in progress, in whatever phase, reaches DONE in a bounded number of the core's steps. -/
def Obligations.EveryOperationReachesDone : Prop :=
  ∀ s : State, s.Inv → s.readyFlag = false → s.turns = [] →
    ∃ k t, k ≤ 4 + s.srcLen + (s.srcLen + 2) / 3 ∧ runSteps k s = .next t ∧ t.phase = .done

/-- R125: whenever ENCODE succeeds, a granted DECODE of the first RES_LEN bytes of its buffer succeeds with the source
and its length; ENCODE of no bytes fails; ENCODE after DECODE is no identity ("QR==" comes back as "QQ=="). -/
def Obligations.DecodeUndoesEncode : Prop :=
  (∀ (maxLen : Nat) (present : Bool) (bytes : List Byte) (grant : Bool) (dst : List Byte) (n : Nat),
    encodeWhole maxLen present bytes grant = some (dst, n) →
    decodeWhole true (dst.take n) true = some (bytes, bytes.length)) ∧
  (∀ (maxLen : Nat) (present grant : Bool), encodeWhole maxLen present [] grant = none) ∧
  decodeWhole true [0x51, 0x52, 0x3D, 0x3D] true = some ([0x41], 1) ∧
  encodeWhole (2 ^ 32 - 1) true [0x41] true = some ([0x51, 0x51, 0x3D, 0x3D, 0x00], 4)

/-- R125 on the machine: ENCODE of any buffer whose text fits, granted, then DECODE of the first RES_LEN bytes of
its result, granted, delivers the buffer byte for byte with RES_LEN its length. -/
def Obligations.RoundTripOnTheMachine : Prop :=
  ∀ (s : State) (bytes : List Byte), s.Inv → s.readyFlag = true → bytes ≠ [] →
    encodedLength bytes.length + 1 ≤ s.maxLen →
    ∃ (k l n : Nat) (t u : State) (text : List Byte),
      runSteps k { s with turns := [.start ⟨0b10#2, bytes.length, some bytes⟩], answers := [true] } = .next t ∧
      t.hostResult = some (some ((text ++ [0x00]).map some, n)) ∧ text.length = n ∧
      runSteps l { t with turns := [.start ⟨0b11#2, n, some text⟩], answers := [true] } = .next u ∧
      u.hostResult = some (some (bytes.map some, bytes.length))

/-! ### Further statements -/

/-- R30: no rule reads a register in a phase in which it holds no value: in every state, reachable or not, no meaning and
no step of anyone ends in the fault that R30 asks of such a read. -/
def Obligations.NoStepReadsARegisterThatHoldsNoValue : Prop :=
  (∀ (i : Instr) (s : State) (r : Reg), exec i s ≠ .fault (.registerHoldsNoValue r)) ∧
  ∀ (s : State) (r : Reg), step s ≠ .fault (.registerHoldsNoValue r)

/-- R32 (f), the half about a finished operation: a step that ends an operation with RES_NULL = 0 leaves the buffer
RES_BUF names with the host, and a buffer the host owns stays, byte for byte, through every step but its RELEASE, which
ends it (R154). That it stands in `delivered` from DONE on is the model's form (log 13). -/
def Obligations.SuccessfulBufferExistsUntilRelease : Prop :=
  (∀ s t : State, s.Inv → s.readyFlag = false → step s = .next t → t.hostResNull = some false →
    t.phase = .done ∧ ∃ name b, t.hostResBuf = some name ∧ findBuffer name t.delivered = some b) ∧
  (∀ (s t : State) (name : Nat) (b : Buffer), s.Inv → findBuffer name s.delivered = some b → step s = .next t →
    (∀ rest, s.turns ≠ .release name :: rest) → findBuffer name t.delivered = some b) ∧
  ∀ (s t : State) (name : Nat) (rest : List Turn), s.turns = .release name :: rest → step s = .next t →
    findBuffer name t.delivered = none
end

