-- ==== Sys2Proof/Laws/State.lean ====
section
/-!
SUPPORT. What each named update of the state does to each field.
-/

namespace Sys2Proof.Machine

variable (s : State)

@[simp] theorem State.enter_lenw (p : Phase) : (s.enter p).lenw = s.lenw := rfl
@[simp] theorem State.enter_phase (p : Phase) : (s.enter p).phase = p := rfl
@[simp] theorem State.enter_cmd (p : Phase) : (s.enter p).cmd = s.cmd := rfl
@[simp] theorem State.enter_srcLen (p : Phase) : (s.enter p).srcLen = s.srcLen := rfl
@[simp] theorem State.enter_src (p : Phase) : (s.enter p).src = s.src := rfl
@[simp] theorem State.enter_i (p : Phase) : (s.enter p).i = s.i := rfl
@[simp] theorem State.enter_j (p : Phase) : (s.enter p).j = s.j := rfl
@[simp] theorem State.enter_v (p : Phase) : (s.enter p).v = s.v := rfl
@[simp] theorem State.enter_outLen (p : Phase) : (s.enter p).outLen = s.outLen := rfl
@[simp] theorem State.enter_acc (p : Phase) : (s.enter p).acc = s.acc := rfl
@[simp] theorem State.enter_res (p : Phase) : (s.enter p).res = s.res := rfl
@[simp] theorem State.enter_dst (p : Phase) : (s.enter p).dst = s.dst := rfl
@[simp] theorem State.enter_delivered (p : Phase) : (s.enter p).delivered = s.delivered := rfl
@[simp] theorem State.enter_nextName (p : Phase) : (s.enter p).nextName = s.nextName := rfl
@[simp] theorem State.enter_turns (p : Phase) : (s.enter p).turns = s.turns := rfl
@[simp] theorem State.enter_answers (p : Phase) : (s.enter p).answers = s.answers := rfl
@[simp] theorem State.enter_draws (p : Phase) : (s.enter p).draws = s.draws := rfl

@[simp] theorem State.setV_lenw (n : Nat) : (s.setV n).lenw = s.lenw := rfl
@[simp] theorem State.setV_phase (n : Nat) : (s.setV n).phase = s.phase := rfl
@[simp] theorem State.setV_cmd (n : Nat) : (s.setV n).cmd = s.cmd := rfl
@[simp] theorem State.setV_srcLen (n : Nat) : (s.setV n).srcLen = s.srcLen := rfl
@[simp] theorem State.setV_src (n : Nat) : (s.setV n).src = s.src := rfl
@[simp] theorem State.setV_i (n : Nat) : (s.setV n).i = s.i := rfl
@[simp] theorem State.setV_j (n : Nat) : (s.setV n).j = s.j := rfl
@[simp] theorem State.setV_v (n : Nat) : (s.setV n).v = n := rfl
@[simp] theorem State.setV_outLen (n : Nat) : (s.setV n).outLen = s.outLen := rfl
@[simp] theorem State.setV_acc (n : Nat) : (s.setV n).acc = s.acc := rfl
@[simp] theorem State.setV_res (n : Nat) : (s.setV n).res = s.res := rfl
@[simp] theorem State.setV_dst (n : Nat) : (s.setV n).dst = s.dst := rfl
@[simp] theorem State.setV_delivered (n : Nat) : (s.setV n).delivered = s.delivered := rfl
@[simp] theorem State.setV_nextName (n : Nat) : (s.setV n).nextName = s.nextName := rfl
@[simp] theorem State.setV_turns (n : Nat) : (s.setV n).turns = s.turns := rfl
@[simp] theorem State.setV_answers (n : Nat) : (s.setV n).answers = s.answers := rfl
@[simp] theorem State.setV_draws (n : Nat) : (s.setV n).draws = s.draws := rfl

@[simp] theorem State.setOutLen_lenw (n : Nat) : (s.setOutLen n).lenw = s.lenw := rfl
@[simp] theorem State.setOutLen_phase (n : Nat) : (s.setOutLen n).phase = s.phase := rfl
@[simp] theorem State.setOutLen_cmd (n : Nat) : (s.setOutLen n).cmd = s.cmd := rfl
@[simp] theorem State.setOutLen_srcLen (n : Nat) : (s.setOutLen n).srcLen = s.srcLen := rfl
@[simp] theorem State.setOutLen_src (n : Nat) : (s.setOutLen n).src = s.src := rfl
@[simp] theorem State.setOutLen_i (n : Nat) : (s.setOutLen n).i = s.i := rfl
@[simp] theorem State.setOutLen_j (n : Nat) : (s.setOutLen n).j = s.j := rfl
@[simp] theorem State.setOutLen_v (n : Nat) : (s.setOutLen n).v = s.v := rfl
@[simp] theorem State.setOutLen_outLen (n : Nat) : (s.setOutLen n).outLen = n := rfl
@[simp] theorem State.setOutLen_acc (n : Nat) : (s.setOutLen n).acc = s.acc := rfl
@[simp] theorem State.setOutLen_res (n : Nat) : (s.setOutLen n).res = s.res := rfl
@[simp] theorem State.setOutLen_dst (n : Nat) : (s.setOutLen n).dst = s.dst := rfl
@[simp] theorem State.setOutLen_delivered (n : Nat) : (s.setOutLen n).delivered = s.delivered := rfl
@[simp] theorem State.setOutLen_nextName (n : Nat) : (s.setOutLen n).nextName = s.nextName := rfl
@[simp] theorem State.setOutLen_turns (n : Nat) : (s.setOutLen n).turns = s.turns := rfl
@[simp] theorem State.setOutLen_answers (n : Nat) : (s.setOutLen n).answers = s.answers := rfl
@[simp] theorem State.setOutLen_draws (n : Nat) : (s.setOutLen n).draws = s.draws := rfl

@[simp] theorem State.setAcc_lenw (g : Group) : (s.setAcc g).lenw = s.lenw := rfl
@[simp] theorem State.setAcc_phase (g : Group) : (s.setAcc g).phase = s.phase := rfl
@[simp] theorem State.setAcc_cmd (g : Group) : (s.setAcc g).cmd = s.cmd := rfl
@[simp] theorem State.setAcc_srcLen (g : Group) : (s.setAcc g).srcLen = s.srcLen := rfl
@[simp] theorem State.setAcc_src (g : Group) : (s.setAcc g).src = s.src := rfl
@[simp] theorem State.setAcc_i (g : Group) : (s.setAcc g).i = s.i := rfl
@[simp] theorem State.setAcc_j (g : Group) : (s.setAcc g).j = s.j := rfl
@[simp] theorem State.setAcc_v (g : Group) : (s.setAcc g).v = s.v := rfl
@[simp] theorem State.setAcc_outLen (g : Group) : (s.setAcc g).outLen = s.outLen := rfl
@[simp] theorem State.setAcc_acc (g : Group) : (s.setAcc g).acc = g := rfl
@[simp] theorem State.setAcc_res (g : Group) : (s.setAcc g).res = s.res := rfl
@[simp] theorem State.setAcc_dst (g : Group) : (s.setAcc g).dst = s.dst := rfl
@[simp] theorem State.setAcc_delivered (g : Group) : (s.setAcc g).delivered = s.delivered := rfl
@[simp] theorem State.setAcc_nextName (g : Group) : (s.setAcc g).nextName = s.nextName := rfl
@[simp] theorem State.setAcc_turns (g : Group) : (s.setAcc g).turns = s.turns := rfl
@[simp] theorem State.setAcc_answers (g : Group) : (s.setAcc g).answers = s.answers := rfl
@[simp] theorem State.setAcc_draws (g : Group) : (s.setAcc g).draws = s.draws := rfl

@[simp] theorem State.setI_lenw (n : Nat) : (s.setI n).lenw = s.lenw := rfl
@[simp] theorem State.setI_phase (n : Nat) : (s.setI n).phase = s.phase := rfl
@[simp] theorem State.setI_cmd (n : Nat) : (s.setI n).cmd = s.cmd := rfl
@[simp] theorem State.setI_srcLen (n : Nat) : (s.setI n).srcLen = s.srcLen := rfl
@[simp] theorem State.setI_src (n : Nat) : (s.setI n).src = s.src := rfl
@[simp] theorem State.setI_i (n : Nat) : (s.setI n).i = n := rfl
@[simp] theorem State.setI_j (n : Nat) : (s.setI n).j = s.j := rfl
@[simp] theorem State.setI_v (n : Nat) : (s.setI n).v = s.v := rfl
@[simp] theorem State.setI_outLen (n : Nat) : (s.setI n).outLen = s.outLen := rfl
@[simp] theorem State.setI_acc (n : Nat) : (s.setI n).acc = s.acc := rfl
@[simp] theorem State.setI_res (n : Nat) : (s.setI n).res = s.res := rfl
@[simp] theorem State.setI_dst (n : Nat) : (s.setI n).dst = s.dst := rfl
@[simp] theorem State.setI_delivered (n : Nat) : (s.setI n).delivered = s.delivered := rfl
@[simp] theorem State.setI_nextName (n : Nat) : (s.setI n).nextName = s.nextName := rfl
@[simp] theorem State.setI_turns (n : Nat) : (s.setI n).turns = s.turns := rfl
@[simp] theorem State.setI_answers (n : Nat) : (s.setI n).answers = s.answers := rfl
@[simp] theorem State.setI_draws (n : Nat) : (s.setI n).draws = s.draws := rfl

@[simp] theorem State.setJ_lenw (n : Nat) : (s.setJ n).lenw = s.lenw := rfl
@[simp] theorem State.setJ_phase (n : Nat) : (s.setJ n).phase = s.phase := rfl
@[simp] theorem State.setJ_cmd (n : Nat) : (s.setJ n).cmd = s.cmd := rfl
@[simp] theorem State.setJ_srcLen (n : Nat) : (s.setJ n).srcLen = s.srcLen := rfl
@[simp] theorem State.setJ_src (n : Nat) : (s.setJ n).src = s.src := rfl
@[simp] theorem State.setJ_i (n : Nat) : (s.setJ n).i = s.i := rfl
@[simp] theorem State.setJ_j (n : Nat) : (s.setJ n).j = n := rfl
@[simp] theorem State.setJ_v (n : Nat) : (s.setJ n).v = s.v := rfl
@[simp] theorem State.setJ_outLen (n : Nat) : (s.setJ n).outLen = s.outLen := rfl
@[simp] theorem State.setJ_acc (n : Nat) : (s.setJ n).acc = s.acc := rfl
@[simp] theorem State.setJ_res (n : Nat) : (s.setJ n).res = s.res := rfl
@[simp] theorem State.setJ_dst (n : Nat) : (s.setJ n).dst = s.dst := rfl
@[simp] theorem State.setJ_delivered (n : Nat) : (s.setJ n).delivered = s.delivered := rfl
@[simp] theorem State.setJ_nextName (n : Nat) : (s.setJ n).nextName = s.nextName := rfl
@[simp] theorem State.setJ_turns (n : Nat) : (s.setJ n).turns = s.turns := rfl
@[simp] theorem State.setJ_answers (n : Nat) : (s.setJ n).answers = s.answers := rfl
@[simp] theorem State.setJ_draws (n : Nat) : (s.setJ n).draws = s.draws := rfl

@[simp] theorem State.setDst_lenw (d : Option NamedBuffer) : (s.setDst d).lenw = s.lenw := rfl
@[simp] theorem State.setDst_phase (d : Option NamedBuffer) : (s.setDst d).phase = s.phase := rfl
@[simp] theorem State.setDst_cmd (d : Option NamedBuffer) : (s.setDst d).cmd = s.cmd := rfl
@[simp] theorem State.setDst_srcLen (d : Option NamedBuffer) : (s.setDst d).srcLen = s.srcLen := rfl
@[simp] theorem State.setDst_src (d : Option NamedBuffer) : (s.setDst d).src = s.src := rfl
@[simp] theorem State.setDst_i (d : Option NamedBuffer) : (s.setDst d).i = s.i := rfl
@[simp] theorem State.setDst_j (d : Option NamedBuffer) : (s.setDst d).j = s.j := rfl
@[simp] theorem State.setDst_v (d : Option NamedBuffer) : (s.setDst d).v = s.v := rfl
@[simp] theorem State.setDst_outLen (d : Option NamedBuffer) : (s.setDst d).outLen = s.outLen := rfl
@[simp] theorem State.setDst_acc (d : Option NamedBuffer) : (s.setDst d).acc = s.acc := rfl
@[simp] theorem State.setDst_res (d : Option NamedBuffer) : (s.setDst d).res = s.res := rfl
@[simp] theorem State.setDst_dst (d : Option NamedBuffer) : (s.setDst d).dst = d := rfl
@[simp] theorem State.setDst_delivered (d : Option NamedBuffer) : (s.setDst d).delivered = s.delivered := rfl
@[simp] theorem State.setDst_nextName (d : Option NamedBuffer) : (s.setDst d).nextName = s.nextName := rfl
@[simp] theorem State.setDst_turns (d : Option NamedBuffer) : (s.setDst d).turns = s.turns := rfl
@[simp] theorem State.setDst_answers (d : Option NamedBuffer) : (s.setDst d).answers = s.answers := rfl
@[simp] theorem State.setDst_draws (d : Option NamedBuffer) : (s.setDst d).draws = s.draws := rfl

@[simp] theorem State.setRes_lenw (r : Option Results) : (s.setRes r).lenw = s.lenw := rfl
@[simp] theorem State.setRes_phase (r : Option Results) : (s.setRes r).phase = s.phase := rfl
@[simp] theorem State.setRes_cmd (r : Option Results) : (s.setRes r).cmd = s.cmd := rfl
@[simp] theorem State.setRes_srcLen (r : Option Results) : (s.setRes r).srcLen = s.srcLen := rfl
@[simp] theorem State.setRes_src (r : Option Results) : (s.setRes r).src = s.src := rfl
@[simp] theorem State.setRes_i (r : Option Results) : (s.setRes r).i = s.i := rfl
@[simp] theorem State.setRes_j (r : Option Results) : (s.setRes r).j = s.j := rfl
@[simp] theorem State.setRes_v (r : Option Results) : (s.setRes r).v = s.v := rfl
@[simp] theorem State.setRes_outLen (r : Option Results) : (s.setRes r).outLen = s.outLen := rfl
@[simp] theorem State.setRes_acc (r : Option Results) : (s.setRes r).acc = s.acc := rfl
@[simp] theorem State.setRes_res (r : Option Results) : (s.setRes r).res = r := rfl
@[simp] theorem State.setRes_dst (r : Option Results) : (s.setRes r).dst = s.dst := rfl
@[simp] theorem State.setRes_delivered (r : Option Results) : (s.setRes r).delivered = s.delivered := rfl
@[simp] theorem State.setRes_nextName (r : Option Results) : (s.setRes r).nextName = s.nextName := rfl
@[simp] theorem State.setRes_turns (r : Option Results) : (s.setRes r).turns = s.turns := rfl
@[simp] theorem State.setRes_answers (r : Option Results) : (s.setRes r).answers = s.answers := rfl
@[simp] theorem State.setRes_draws (r : Option Results) : (s.setRes r).draws = s.draws := rfl

@[simp] theorem State.grant_lenw (n : Nat) : (s.grant n).lenw = s.lenw := rfl
@[simp] theorem State.grant_phase (n : Nat) : (s.grant n).phase = s.phase := rfl
@[simp] theorem State.grant_cmd (n : Nat) : (s.grant n).cmd = s.cmd := rfl
@[simp] theorem State.grant_srcLen (n : Nat) : (s.grant n).srcLen = s.srcLen := rfl
@[simp] theorem State.grant_src (n : Nat) : (s.grant n).src = s.src := rfl
@[simp] theorem State.grant_i (n : Nat) : (s.grant n).i = s.i := rfl
@[simp] theorem State.grant_j (n : Nat) : (s.grant n).j = s.j := rfl
@[simp] theorem State.grant_v (n : Nat) : (s.grant n).v = s.v := rfl
@[simp] theorem State.grant_outLen (n : Nat) : (s.grant n).outLen = s.outLen := rfl
@[simp] theorem State.grant_acc (n : Nat) : (s.grant n).acc = s.acc := rfl
@[simp] theorem State.grant_res (n : Nat) : (s.grant n).res = s.res := rfl
@[simp] theorem State.grant_dst (n : Nat) : (s.grant n).dst = some { name := s.nextName, buf := Buffer.fresh n } := rfl
@[simp] theorem State.grant_delivered (n : Nat) : (s.grant n).delivered = s.delivered := rfl
@[simp] theorem State.grant_nextName (n : Nat) : (s.grant n).nextName = s.nextName + 1 := rfl
@[simp] theorem State.grant_turns (n : Nat) : (s.grant n).turns = s.turns := rfl
@[simp] theorem State.grant_answers (n : Nat) : (s.grant n).answers = s.answers := rfl
@[simp] theorem State.grant_draws (n : Nat) : (s.grant n).draws = s.draws := rfl

@[simp] theorem State.latch_lenw (c : Command) : (s.latch c).lenw = s.lenw := rfl
@[simp] theorem State.latch_phase (c : Command) : (s.latch c).phase = .check := rfl
@[simp] theorem State.latch_cmd (c : Command) : (s.latch c).cmd = c.cmd := rfl
@[simp] theorem State.latch_srcLen (c : Command) : (s.latch c).srcLen = c.len := rfl
@[simp] theorem State.latch_src (c : Command) : (s.latch c).src = c.src := rfl
@[simp] theorem State.latch_i (c : Command) : (s.latch c).i = s.i := rfl
@[simp] theorem State.latch_j (c : Command) : (s.latch c).j = s.j := rfl
@[simp] theorem State.latch_v (c : Command) : (s.latch c).v = s.v := rfl
@[simp] theorem State.latch_outLen (c : Command) : (s.latch c).outLen = s.outLen := rfl
@[simp] theorem State.latch_acc (c : Command) : (s.latch c).acc = s.acc := rfl
@[simp] theorem State.latch_res (c : Command) : (s.latch c).res = none := rfl
@[simp] theorem State.latch_dst (c : Command) : (s.latch c).dst = s.dst := rfl
@[simp] theorem State.latch_delivered (c : Command) : (s.latch c).delivered = s.delivered := rfl
@[simp] theorem State.latch_nextName (c : Command) : (s.latch c).nextName = s.nextName := rfl
@[simp] theorem State.latch_turns (c : Command) : (s.latch c).turns = s.turns := rfl
@[simp] theorem State.latch_answers (c : Command) : (s.latch c).answers = s.answers := rfl
@[simp] theorem State.latch_draws (c : Command) : (s.latch c).draws = s.draws := rfl

@[simp] theorem raiseFail_lenw (cause : FailCause) : (raiseFail cause s).lenw = s.lenw := rfl
@[simp] theorem raiseFail_phase (cause : FailCause) : (raiseFail cause s).phase = .done := rfl
@[simp] theorem raiseFail_cmd (cause : FailCause) : (raiseFail cause s).cmd = s.cmd := rfl
@[simp] theorem raiseFail_srcLen (cause : FailCause) : (raiseFail cause s).srcLen = s.srcLen := rfl
@[simp] theorem raiseFail_src (cause : FailCause) : (raiseFail cause s).src = s.src := rfl
@[simp] theorem raiseFail_i (cause : FailCause) : (raiseFail cause s).i = s.i := rfl
@[simp] theorem raiseFail_j (cause : FailCause) : (raiseFail cause s).j = s.j := rfl
@[simp] theorem raiseFail_v (cause : FailCause) : (raiseFail cause s).v = s.v := rfl
@[simp] theorem raiseFail_outLen (cause : FailCause) : (raiseFail cause s).outLen = s.outLen := rfl
@[simp] theorem raiseFail_acc (cause : FailCause) : (raiseFail cause s).acc = s.acc := rfl
@[simp] theorem raiseFail_res (cause : FailCause) : (raiseFail cause s).res = some { null := true, len := 0, buf := none } := rfl
@[simp] theorem raiseFail_dst (cause : FailCause) : (raiseFail cause s).dst = s.dst := rfl
@[simp] theorem raiseFail_delivered (cause : FailCause) : (raiseFail cause s).delivered = s.delivered := rfl
@[simp] theorem raiseFail_nextName (cause : FailCause) : (raiseFail cause s).nextName = s.nextName := rfl
@[simp] theorem raiseFail_turns (cause : FailCause) : (raiseFail cause s).turns = s.turns := rfl
@[simp] theorem raiseFail_answers (cause : FailCause) : (raiseFail cause s).answers = s.answers := rfl
@[simp] theorem raiseFail_draws (cause : FailCause) : (raiseFail cause s).draws = s.draws := rfl

@[simp] theorem resetEvent_lenw : (resetEvent s).lenw = s.lenw := rfl
@[simp] theorem resetEvent_phase : (resetEvent s).phase = State.reset.phase := rfl
@[simp] theorem resetEvent_cmd : (resetEvent s).cmd = State.reset.cmd := rfl
@[simp] theorem resetEvent_srcLen : (resetEvent s).srcLen = State.reset.srcLen := rfl
@[simp] theorem resetEvent_src : (resetEvent s).src = State.reset.src := rfl
@[simp] theorem resetEvent_i : (resetEvent s).i = State.reset.i := rfl
@[simp] theorem resetEvent_j : (resetEvent s).j = State.reset.j := rfl
@[simp] theorem resetEvent_v : (resetEvent s).v = State.reset.v := rfl
@[simp] theorem resetEvent_outLen : (resetEvent s).outLen = State.reset.outLen := rfl
@[simp] theorem resetEvent_acc : (resetEvent s).acc = State.reset.acc := rfl
@[simp] theorem resetEvent_res : (resetEvent s).res = State.reset.res := rfl
@[simp] theorem resetEvent_dst : (resetEvent s).dst = State.reset.dst := rfl
@[simp] theorem resetEvent_delivered : (resetEvent s).delivered = s.delivered := rfl
@[simp] theorem resetEvent_nextName : (resetEvent s).nextName = s.nextName := rfl
@[simp] theorem resetEvent_turns : (resetEvent s).turns = s.turns := rfl
@[simp] theorem resetEvent_answers : (resetEvent s).answers = s.answers := rfl
@[simp] theorem resetEvent_draws : (resetEvent s).draws = s.draws := rfl

/-! A buffer write changes the cells only. -/

@[simp] theorem Buffer.write_size (b : Buffer) (k : Nat) (x : Byte) : (b.write k x).size = b.size := rfl
@[simp] theorem Buffer.write_cells (b : Buffer) (k : Nat) (x : Byte) :
    (b.write k x).cells = Memory.write b.cells k x := rfl
@[simp] theorem Buffer.fresh_size (n : Nat) : (Buffer.fresh n).size = n := rfl
@[simp] theorem Buffer.fresh_cells (n : Nat) : (Buffer.fresh n).cells = [] := rfl

end Sys2Proof.Machine
end

