-- ==== Sys2Proof/Laws/Memory.lean ====
section
/-!
SUPPORT. The laws of memory: a read after a write, the canonical form, and buffers filled up to an index.
-/

namespace Sys2Proof.Machine

theorem Memory.read_write (m : Memory) (k l : Nat) (b : Byte) (h : Memory.wf m) :
    Memory.read (Memory.write m k b) l = if l = k then some b else Memory.read m l := by
  induction m with
  | nil => simp [Memory.write, Memory.read, eq_comm]
  | cons c m ih =>
    obtain ⟨hc, hm⟩ := List.pairwise_cons.mp h
    replace ih := ih hm
    simp only [Memory.write]
    split
    · simp only [Memory.read]
      by_cases hl : l = k
      · simp [hl]
      · simp [hl, Ne.symm hl]
    · split
      · rename_i _ hk
        subst hk
        by_cases hl : l = c.1
        · simp [hl, Memory.read]
        · simp [Memory.read, hl, Ne.symm hl]
      · simp only [Memory.read, ih]
        by_cases hl : c.1 = l
        · subst hl
          rename_i hk
          simp [Ne.symm hk]
        · simp [hl]

theorem Memory.mem_write (m : Memory) (k : Nat) (b : Byte) (c : Host.Cell)
    (h : c ∈ Memory.write m k b) : c = (k, b) ∨ c ∈ m := by
  induction m with
  | nil => simpa [Memory.write] using h
  | cons d m ih =>
    simp only [Memory.write] at h
    split at h
    · simpa using h
    · split at h
      · rcases List.mem_cons.mp h with h | h
        · exact .inl h
        · exact .inr (List.mem_cons_of_mem _ h)
      · rcases List.mem_cons.mp h with h | h
        · exact .inr (h ▸ List.mem_cons_self)
        · exact (ih h).imp id (List.mem_cons_of_mem _)

/-- A write keeps the canonical form of a memory. -/
theorem Memory.write_wf (m : Memory) (k : Nat) (b : Byte) (h : Memory.wf m) :
    Memory.wf (Memory.write m k b) := by
  induction m with
  | nil => simp [Memory.write, Memory.wf]
  | cons c m ih =>
    obtain ⟨hc, hm⟩ := List.pairwise_cons.mp h
    simp only [Memory.write]
    split
    · rename_i hk
      refine List.pairwise_cons.mpr ⟨fun d hd => ?_, h⟩
      rcases List.mem_cons.mp hd with rfl | hd
      · exact hk
      · exact Nat.lt_trans hk (hc d hd)
    · split
      · rename_i hk
        exact List.pairwise_cons.mpr ⟨fun d hd => hk ▸ hc d hd, hm⟩
      · refine List.pairwise_cons.mpr ⟨fun d hd => ?_, ih hm⟩
        rcases Memory.mem_write m k b d hd with rfl | hd
        · simp only []
          omega
        · exact hc d hd

/-- A write below the size keeps the canonical form of a buffer. -/
theorem Buffer.write_wf (b : Buffer) (k : Nat) (x : Byte) (h : b.wf) (hk : k < b.size) :
    (b.write k x).wf := by
  refine ⟨Memory.write_wf _ _ _ h.1, fun c hc => ?_⟩
  rcases Memory.mem_write _ _ _ _ hc with rfl | hc
  · exact hk
  · exact h.2 c hc

theorem Buffer.fresh_wf (n : Nat) : (Buffer.fresh n).wf := by simp [Buffer.fresh, Buffer.wf]

/-- A granted byte holds no value (R144). -/
@[simp] theorem Buffer.read_fresh (n k : Nat) : (Buffer.fresh n).read k = none := rfl

theorem Buffer.read_write (b : Buffer) (k l : Nat) (x : Byte) (h : b.wf) :
    (b.write k x).read l = if l = k then some x else b.read l :=
  Memory.read_write b.cells k l x h.1

/-- Writing at the first index not yet written is an append. -/
theorem Memory.write_end (m : Memory) (k : Nat) (b : Byte) (h : ∀ c ∈ m, c.1 < k) :
    Memory.write m k b = m ++ [(k, b)] := by
  induction m with
  | nil => rfl
  | cons c m ih =>
    have hc := h c List.mem_cons_self
    have := ih fun d hd => h d (List.mem_cons_of_mem _ hd)
    simp [Memory.write, this, Nat.not_lt.mpr (Nat.le_of_lt hc), Nat.ne_of_gt hc]

theorem Buffer.filledTo_lt {b : Buffer} {n : Nat} (h : b.filledTo n) : ∀ c ∈ b.cells, c.1 < n := by
  intro c hc
  have : c.1 ∈ b.cells.map (·.1) := List.mem_map_of_mem hc
  rw [h] at this
  exact List.mem_range.mp this

/-- A buffer written below its size, in order, is in canonical form. -/
theorem Buffer.filledTo_wf {b : Buffer} {n : Nat} (h : b.filledTo n) (hn : n ≤ b.size) : b.wf := by
  refine ⟨?_, fun c hc => Nat.lt_of_lt_of_le (filledTo_lt h c hc) hn⟩
  have := @List.pairwise_lt_range n
  rw [← h, List.pairwise_map] at this
  exact this

theorem Buffer.fresh_filledTo (n : Nat) : (Buffer.fresh n).filledTo 0 := rfl

/-- The next byte in order. -/
theorem Buffer.write_filledTo {b : Buffer} {n : Nat} (x : Byte) (h : b.filledTo n) :
    (b.write n x).filledTo (n + 1) := by
  show (Memory.write b.cells n x).map (·.1) = _
  rw [Memory.write_end _ _ _ (filledTo_lt h), List.map_append, List.range_succ]
  exact congrArg (· ++ [n]) h

/-- The bytes of a buffer filled up to `n`, as the cells hold them. -/
theorem Buffer.write_cells_of_filledTo {b : Buffer} {n : Nat} (x : Byte) (h : b.filledTo n) :
    (b.write n x).cells = b.cells ++ [(n, x)] :=
  Memory.write_end _ _ _ (filledTo_lt h)

theorem Memory.read_of_index (m : Memory) (n : Nat) (h : m.map (·.1) = List.range' n m.length) (k : Nat)
    (hk : n ≤ k) : Memory.read m k = (m.map (·.2))[k - n]? := by
  induction m generalizing n with
  | nil => rfl
  | cons c m ih =>
    simp only [List.map_cons, List.length_cons, List.range'_succ, List.cons.injEq] at h
    obtain ⟨hc, hm⟩ := h
    simp only [Memory.read, hc]
    split
    · rename_i hk'
      subst hk'
      simp
    · rw [ih (n + 1) hm (by omega)]
      rw [List.map_cons, show k - n = (k - (n + 1)) + 1 by omega, List.getElem?_cons_succ]

/-- Reading a buffer filled up to `n`: the byte in that place of the sequence written. -/
theorem Buffer.read_filledTo {b : Buffer} {n : Nat} (h : b.filledTo n) (k : Nat) :
    b.read k = (b.cells.map (·.2))[k]? := by
  have hl : b.cells.length = n := by simpa using congrArg List.length h
  exact Memory.read_of_index b.cells 0 (by rw [h, hl, List.range_eq_range']) k (Nat.zero_le k)

/-- What stands in a buffer that has been written in full. -/
theorem Buffer.contents_filledTo {b : Buffer} (h : b.filledTo b.size) :
    b.contents = (b.cells.map (·.2)).map some := by
  have hl : b.cells.length = b.size := by simpa using congrArg List.length h
  apply List.ext_getElem?
  intro k
  simp only [Buffer.contents, List.getElem?_map]
  by_cases hk : k < b.size
  · rw [List.getElem?_range hk]
    simp only [Option.map_some, read_filledTo h, List.getElem?_map]
    rw [List.getElem?_eq_getElem (by omega)]
    rfl
  · rw [List.getElem?_eq_none (by simpa using hk), List.getElem?_eq_none (by omega)]
    rfl

/-- Every memory the machine starts with is in canonical form. -/
theorem reset_memoryWf : State.reset.memoryWf := by decide

end Sys2Proof.Machine
end

