-- ==== Sys2Proof/Laws/Tables.lean ====
section
/-!
SUPPORT. The lookup tables as the operations use them, and the two views of a group.
-/

namespace Sys2Proof.Machine

/-! ### Tables -/

@[simp] theorem sextetOf_padChar : sextetOf padChar = some 0 := rfl

/-- The inverse table undoes the forward table. -/
@[simp] theorem sextetOf_fwd (v : Sextet) : sextetOf (fwd v) = some v := by
  revert v; decide

/-- No symbol of the alphabet is the padding character. -/
theorem fwd_ne_padChar (v : Sextet) : fwd v ≠ padChar := by
  revert v; decide

@[simp] theorem allowed_fwd (v : Sextet) : allowed (fwd v) = true := by
  revert v; decide

@[simp] theorem allowed_padChar : allowed padChar = true := rfl

theorem allowed_eq_isSome (c : Byte) : allowed c = (sextetOf c).isSome := by
  unfold allowed sextetOf
  by_cases hp : c = padChar
  · simp [hp]
  · by_cases ho : c.toNat < invOffset
    · simp [hp, ho]
    · have ho' : invOffset ≤ c.toNat := by omega
      cases hi : inv (c.toNat - invOffset) with
      | none => simp [hp, ho]
      | some e => by_cases he : e = invSentinel <;> simp [hp, ho, he, ho']

/-- SEXTET is defined exactly on the allowed set. -/
theorem sextetOf_of_allowed {c : Byte} (h : allowed c = true) : ∃ x, sextetOf c = some x := by
  rw [allowed_eq_isSome] at h
  exact Option.isSome_iff_exists.mp h

theorem readSextet_of_allowed {c : Byte} (h : allowed c = true) :
    readSextet c = .ok ((sextetOf c).getD 0) := by
  obtain ⟨x, hx⟩ := sextetOf_of_allowed h
  simp [readSextet, hx]

/-! ### Groups -/

@[simp] theorem octet0_groupOfOctets (a b c : Byte) : octet0 (groupOfOctets a b c) = a := by
  unfold octet0 groupOfOctets
  ext k hk
  simp
  grind

@[simp] theorem octet1_groupOfOctets (a b c : Byte) : octet1 (groupOfOctets a b c) = b := by
  unfold octet1 groupOfOctets
  ext k hk
  simp
  grind

@[simp] theorem octet2_groupOfOctets (a b c : Byte) : octet2 (groupOfOctets a b c) = c := by
  unfold octet2 groupOfOctets
  ext k hk
  simp
  grind

@[simp] theorem sextet0_groupOfSextets (a b c d : Sextet) : sextet0 (groupOfSextets a b c d) = a := by
  unfold sextet0 groupOfSextets
  ext k hk
  simp
  grind

@[simp] theorem sextet1_groupOfSextets (a b c d : Sextet) : sextet1 (groupOfSextets a b c d) = b := by
  unfold sextet1 groupOfSextets
  ext k hk
  simp
  grind

@[simp] theorem sextet2_groupOfSextets (a b c d : Sextet) : sextet2 (groupOfSextets a b c d) = c := by
  unfold sextet2 groupOfSextets
  ext k hk
  simp
  grind

@[simp] theorem sextet3_groupOfSextets (a b c d : Sextet) : sextet3 (groupOfSextets a b c d) = d := by
  unfold sextet3 groupOfSextets
  ext k hk
  simp
  grind

/-- A group is its four sextets. -/
theorem groupOfSextets_sextets (g : Group) :
    groupOfSextets (sextet0 g) (sextet1 g) (sextet2 g) (sextet3 g) = g := by
  unfold sextet0 sextet1 sextet2 sextet3 groupOfSextets
  ext k hk
  simp
  grind

end Sys2Proof.Machine
end

