-- ==== Sys2Proof/Laws/Ops.lean ====
section
/-!
SUPPORT. One lemma per shared operation that says what it can do; proofs cite these and do not unfold the operation.
-/

namespace Sys2Proof.Machine

variable {s t : State}

/-! ### Outcomes -/

@[simp] theorem toOutcome_ok (s : State) : StepResult.toOutcome (.ok s) = .next s := rfl
@[simp] theorem toOutcome_error (f : Fault) : StepResult.toOutcome (.error f) = .fault f := rfl

theorem toOutcome_next {r : StepResult} : r.toOutcome = .next t ↔ r = .ok t := by
  cases r <;> simp [StepResult.toOutcome]

theorem toOutcome_fault {r : StepResult} {f : Fault} : r.toOutcome = .fault f ↔ r = .error f := by
  cases r <;> simp [StepResult.toOutcome]

theorem toOutcome_ne_refused {r : StepResult} {x : Refusal} : r.toOutcome ≠ .refused x := by
  cases r <;> simp [StepResult.toOutcome]

/-- Peels one operation off a sequence. -/
theorem bind_ok {ε α β : Type} {x : Except ε α} {f : α → Except ε β} {b : β} :
    (x >>= f) = .ok b ↔ ∃ a, x = .ok a ∧ f a = .ok b := by
  cases x <;> simp [bind, Except.bind]

/-- A sequence ends in a fault at its first operation or after it. -/
theorem bind_error {ε α β : Type} {x : Except ε α} {f : α → Except ε β} {e : ε} :
    (x >>= f) = .error e ↔ x = .error e ∨ ∃ a, x = .ok a ∧ f a = .error e := by
  cases x <;> simp [bind, Except.bind]

@[simp] theorem ok_bind {ε α β : Type} (a : α) (f : α → Except ε β) : ((Except.ok a : Except ε α) >>= f) = f a := rfl
@[simp] theorem error_bind {ε α β : Type} (e : ε) (f : α → Except ε β) :
    ((Except.error e : Except ε α) >>= f) = .error e := rfl

/-! ### Registers -/

theorem readReg_ok {r : Reg} {n : Nat} : s.readReg r = .ok n ↔ r.holdsValue s.phase = true ∧ n = s.stored r := by
  unfold State.readReg
  split
  · rename_i h
    simp only [Except.ok.injEq, h, true_and]
    exact eq_comm
  · simp_all

theorem readReg_of_holds {r : Reg} (h : r.holdsValue s.phase = true) : s.readReg r = .ok (s.stored r) := by
  simp [State.readReg, h]

/-- A read faults exactly in the phases in which the register holds no value (R30, U2). -/
theorem readReg_error {r : Reg} {f : Fault} :
    s.readReg r = .error f ↔ r.holdsValue s.phase = false ∧ f = .registerHoldsNoValue r := by
  unfold State.readReg
  cases r.holdsValue s.phase
  · simp [eq_comm (a := f)]
  · simp

@[simp] theorem stored_srcLen (s : State) : s.stored .srcLen = s.srcLen := rfl
@[simp] theorem stored_i (s : State) : s.stored .i = s.i := rfl
@[simp] theorem stored_j (s : State) : s.stored .j = s.j := rfl
@[simp] theorem stored_v (s : State) : s.stored .v = s.v := rfl
@[simp] theorem stored_outLen (s : State) : s.stored .outLen = s.outLen := rfl

/-! ### The source -/

theorem readSrc_ok {k : Nat} {b : Byte} : s.readSrc k = .ok b ↔ s.source[k]? = some b := by
  unfold State.readSrc
  cases s.source[k]? <;> simp

theorem readSrc_error {k : Nat} {f : Fault} :
    s.readSrc k = .error f ↔ s.source[k]? = none ∧ f = .sourceOutOfRange k := by
  unfold State.readSrc
  cases s.source[k]?
  · simp [eq_comm (a := f)]
  · simp

theorem readSrc_of_lt {k : Nat} (h : k < s.source.length) : s.readSrc k = .ok (s.source.getD k 0) := by
  simp [readSrc_ok, h]

theorem source_length_le (s : State) : s.source.length ≤ s.srcLen := by
  unfold State.source
  split <;> simp

/-- A read at or beyond SRC_LEN never succeeds (R53). -/
theorem readSrc_lt_srcLen {k : Nat} {b : Byte} (h : s.readSrc k = .ok b) : k < s.srcLen := by
  rw [readSrc_ok] at h
  have := (List.getElem?_eq_some_iff.mp h).1
  exact Nat.lt_of_lt_of_le this (source_length_le s)

/-- The source depends on SRC and SRC_LEN only. -/
theorem source_congr (h : t.src = s.src) (h' : t.srcLen = s.srcLen) : t.source = s.source := by
  simp [State.source, h, h']

/-! ### The destination -/

theorem writeDst_ok {k : Nat} {b : Byte} : s.writeDst k b = .ok t ↔
    ∃ d, s.dst = some d ∧ k < d.buf.size ∧ t = s.setDst (some { d with buf := d.buf.write k b }) := by
  unfold State.writeDst
  cases s.dst with
  | none => simp
  | some d =>
    by_cases h : k < d.buf.size
    · simp [h, eq_comm]
    · simp [h]

theorem writeDst_error {k : Nat} {b : Byte} {f : Fault} (h : s.writeDst k b = .error f) :
    (s.dst = none ∧ f = .noDestination) ∨
      ∃ d, s.dst = some d ∧ d.buf.size ≤ k ∧ f = .destinationOutOfRange k := by
  unfold State.writeDst at h
  cases hd : s.dst with
  | none => exact .inl ⟨rfl, by simpa [hd, eq_comm] using h⟩
  | some d =>
    by_cases hk : k < d.buf.size
    · simp [hd, hk] at h
    · exact .inr ⟨d, rfl, Nat.not_lt.mp hk, by simpa [hd, hk, eq_comm] using h⟩

theorem writeDst_of_lt {k : Nat} {b : Byte} {d : NamedBuffer} (hd : s.dst = some d) (hk : k < d.buf.size) :
    s.writeDst k b = .ok (s.setDst (some { d with buf := d.buf.write k b })) :=
  writeDst_ok.mpr ⟨d, hd, hk, rfl⟩

/-- The cells of a buffer after bytes written one after another. -/
def Buffer.writeAll (b : Buffer) (k : Nat) : List Byte → Buffer
  | [] => b
  | x :: xs => (b.write k x).writeAll (k + 1) xs

@[simp] theorem Buffer.writeAll_size (b : Buffer) (k : Nat) (xs : List Byte) : (b.writeAll k xs).size = b.size := by
  induction xs generalizing b k with
  | nil => rfl
  | cons x xs ih => simp [writeAll, ih]

theorem Buffer.writeAll_filledTo {b : Buffer} {n : Nat} (xs : List Byte) (h : b.filledTo n) :
    (b.writeAll n xs).filledTo (n + xs.length) := by
  induction xs generalizing b n with
  | nil => exact h
  | cons x xs ih =>
    have := ih (write_filledTo x h)
    rw [List.length_cons, show n + (xs.length + 1) = n + 1 + xs.length by omega]
    exact this

/-- Bytes written in order are appended to those already there. -/
theorem Buffer.writeAll_bytes {b : Buffer} {n : Nat} (xs : List Byte) (h : b.filledTo n) :
    (b.writeAll n xs).cells.map (·.2) = b.cells.map (·.2) ++ xs := by
  induction xs generalizing b n with
  | nil => simp [writeAll]
  | cons x xs ih =>
    rw [writeAll, ih (write_filledTo x h), write_cells_of_filledTo x h]
    simp

theorem Buffer.writeAll_wf (b : Buffer) (k : Nat) (xs : List Byte) (h : b.wf) (hk : k + xs.length ≤ b.size) :
    (b.writeAll k xs).wf := by
  induction xs generalizing b k with
  | nil => exact h
  | cons x xs ih =>
    simp only [List.length_cons] at hk
    exact ih _ _ (write_wf b k x h (by omega)) (by simp; omega)

/-- Every index outside the bytes written reads as before. -/
theorem Buffer.read_writeAll_of_not_mem (b : Buffer) (k l : Nat) (xs : List Byte) (h : b.wf)
    (hk : k + xs.length ≤ b.size) (hl : l < k ∨ k + xs.length ≤ l) : (b.writeAll k xs).read l = b.read l := by
  induction xs generalizing b k with
  | nil => rfl
  | cons x xs ih =>
    simp only [List.length_cons] at hk hl
    rw [writeAll, ih _ _ (write_wf b k x h (by omega)) (by simp; omega) (by omega), read_write b k l x h,
      if_neg (by omega)]

/-- A row of bytes written to DST succeeds exactly when DST exists and has room for them. -/
theorem writeDstBytes_ok {k : Nat} {xs : List Byte} (hx : xs ≠ []) : s.writeDstBytes k xs = .ok t ↔
    ∃ d, s.dst = some d ∧ k + xs.length ≤ d.buf.size ∧
      t = s.setDst (some { d with buf := d.buf.writeAll k xs }) := by
  induction xs generalizing s k with
  | nil => exact absurd rfl hx
  | cons x xs ih =>
    simp only [State.writeDstBytes, bind_ok, writeDst_ok, List.length_cons]
    cases xs with
    | nil =>
      constructor
      · rintro ⟨a, ⟨d, hd, hk, rfl⟩, h⟩
        refine ⟨d, hd, hk, ?_⟩
        simpa [State.writeDstBytes, Buffer.writeAll, eq_comm] using h
      · rintro ⟨d, hd, hk, rfl⟩
        exact ⟨_, ⟨d, hd, hk, rfl⟩, rfl⟩
    | cons y ys =>
      constructor
      · rintro ⟨a, ⟨d, hd, hk, rfl⟩, h⟩
        rw [ih (by simp)] at h
        obtain ⟨e, he, hk', rfl⟩ := h
        simp only [State.setDst_dst, Option.some.injEq] at he
        subst he
        exact ⟨d, hd, by simp only [Buffer.write_size, List.length_cons] at hk' ⊢; omega, rfl⟩
      · rintro ⟨d, hd, hk, rfl⟩
        refine ⟨_, ⟨d, hd, by omega, rfl⟩, ?_⟩
        rw [ih (by simp)]
        exact ⟨_, rfl, by simp only [Buffer.write_size, List.length_cons] at hk ⊢; omega, rfl⟩

/-- One write of a DECODE group: the next byte while J < OUT_LEN, else nothing (R117). -/
theorem emit_ok {b : Byte} (hp : s.phase = .run) : s.emit b = .ok t ↔
    (s.j < s.outLen ∧ ∃ d, s.dst = some d ∧ s.j < d.buf.size ∧
      t = (s.setDst (some { d with buf := d.buf.write s.j b })).setJ (s.j + 1)) ∨
    (s.outLen ≤ s.j ∧ t = s) := by
  have hj : s.readReg .j = .ok s.j := readReg_of_holds (by simp [Reg.holdsValue, hp])
  have hn : s.readReg .outLen = .ok s.outLen := readReg_of_holds (by simp [Reg.holdsValue, hp])
  simp only [State.emit, hj, hn, ok_bind]
  by_cases h : s.j < s.outLen
  · simp only [h, if_true, bind_ok, writeDst_ok, true_and, Nat.not_le.mpr h, false_and, or_false]
    constructor
    · rintro ⟨a, ⟨d, hd, hk, rfl⟩, h⟩
      exact ⟨d, hd, hk, by simpa [eq_comm] using h⟩
    · rintro ⟨d, hd, hk, rfl⟩
      exact ⟨_, ⟨d, hd, hk, rfl⟩, rfl⟩
  · simp [h, Nat.not_lt.mp h, eq_comm]

/-! ### The allocator -/

/-- A draw takes one answer and changes nothing but the answers still to come (R144). -/
theorem draw_eq (s : State) :
    (∃ g rest, s.answers = g :: rest ∧ s.draw = (g, { s with answers := rest })) ∨
    (s.answers = [] ∧ s.draw = (Config.allocatorAnswer s.draws, { s with draws := s.draws + 1 })) := by
  unfold State.draw
  cases h : s.answers with
  | nil => exact .inr ⟨rfl, rfl⟩
  | cons g rest => exact .inl ⟨g, rest, rfl, rfl⟩

/-- What a draw leaves: every field but `answers` and `draws`. -/
theorem draw_frame (s : State) :
    s.draw.2 = { s with answers := s.draw.2.answers, draws := s.draw.2.draws } := by
  rcases draw_eq s with ⟨g, rest, _, h⟩ | ⟨_, h⟩ <;> simp [h]

/-- The two ends of an ALLOC step (R93, R116). -/
theorem requestBuffer_eq (s : State) (n : Nat) :
    (s.draw.1 = true ∧ s.requestBuffer n = (((s.draw.2.grant n).setI 0).setJ 0).enter .run) ∨
    (s.draw.1 = false ∧ s.requestBuffer n = raiseFail .alloc s.draw.2) := by
  unfold State.requestBuffer
  cases s.draw.1 <;> simp

/-! ### The delivery -/

theorem publish_ok (hp : s.phase = .finish) : s.publish = .ok t ↔
    ∃ d, s.dst = some d ∧
      t = { s with
            delivered := d :: s.delivered
            dst := none
            res := some { null := false, len := s.outLen, buf := some d.name }
            phase := .done } := by
  have hn : s.readReg .outLen = .ok s.outLen := readReg_of_holds (by simp [Reg.holdsValue, hp])
  simp only [State.publish, hn, ok_bind]
  cases s.dst with
  | none => simp
  | some d =>
    simp only [Except.ok.injEq, Option.some.injEq, exists_eq_left', eq_comm (b := t)]
    rfl

/-! ### Memory stays in its canonical form -/

theorem memoryWf_setDst {d e : NamedBuffer} (h : s.memoryWf) (_hd : s.dst = some d) (he : e.buf.wf) :
    (s.setDst (some e)).memoryWf := by
  intro x hx
  simp only [State.buffers, State.setDst_dst, State.setDst_delivered, Option.toList_some, List.singleton_append,
    List.mem_cons] at hx
  rcases hx with rfl | hx
  · exact he
  · exact h x (by simp [State.buffers, hx])

theorem writeDst_memoryWf {k : Nat} {b : Byte} (h : s.memoryWf) (hw : s.writeDst k b = .ok t) : t.memoryWf := by
  obtain ⟨d, hd, hk, rfl⟩ := writeDst_ok.mp hw
  exact memoryWf_setDst h hd (Buffer.write_wf _ _ _ (h d (by simp [State.buffers, hd])) hk)

theorem writeDstBytes_memoryWf {k : Nat} {xs : List Byte} (h : s.memoryWf) (hw : s.writeDstBytes k xs = .ok t) :
    t.memoryWf := by
  induction xs generalizing s k with
  | nil =>
    cases hw
    exact h
  | cons x xs ih =>
    obtain ⟨a, ha, hw⟩ := bind_ok.mp hw
    exact ih (writeDst_memoryWf h ha) hw

theorem memoryWf_congr (hd : t.dst = s.dst) (hv : t.delivered = s.delivered) (h : s.memoryWf) : t.memoryWf := by
  intro d hm
  exact h d (by simpa [State.buffers, hd, hv] using hm)

theorem grant_memoryWf (n : Nat) (h : s.memoryWf) : (s.grant n).memoryWf := by
  intro d hd
  simp only [State.buffers, State.grant_dst, State.grant_delivered, Option.toList_some, List.singleton_append,
    List.mem_cons] at hd
  rcases hd with rfl | hd
  · exact Buffer.fresh_wf n
  · exact h d (by simp [State.buffers, hd])

/-! ### Buffers by name -/

theorem findBuffer_some {name : Nat} {ds : List NamedBuffer} {b : Buffer} (h : findBuffer name ds = some b) :
    ∃ d ∈ ds, d.name = name ∧ d.buf = b := by
  induction ds with
  | nil => simp [findBuffer] at h
  | cons d ds ih =>
    simp only [findBuffer] at h
    split at h
    · rename_i hn
      exact ⟨d, List.mem_cons_self, hn, by simpa using h⟩
    · obtain ⟨e, he, hn, hb⟩ := ih h
      exact ⟨e, List.mem_cons_of_mem _ he, hn, hb⟩

theorem findBuffer_eq_none {name : Nat} {ds : List NamedBuffer} :
    findBuffer name ds = none ↔ ∀ d ∈ ds, d.name ≠ name := by
  induction ds with
  | nil => simp [findBuffer]
  | cons d ds ih =>
    simp only [findBuffer, List.mem_cons, forall_eq_or_imp]
    split
    · simp_all
    · simp_all

theorem findBuffer_filter (name m : Nat) (ds : List NamedBuffer) :
    findBuffer m (ds.filter fun d => d.name != name) = if m = name then none else findBuffer m ds := by
  induction ds with
  | nil => simp [findBuffer]
  | cons d ds ih =>
    simp only [List.filter_cons]
    by_cases hd : d.name = name
    · simp only [hd, bne_self_eq_false, Bool.false_eq_true, if_false, ih, findBuffer]
      by_cases hm : m = name
      · simp [hm]
      · simp [hm, Ne.symm hm]
    · simp only [bne_iff_ne, ne_eq, hd, not_false_eq_true, if_true, findBuffer, ih]
      by_cases hm : m = name
      · subst hm
        simp [hd]
      · simp [hm]

end Sys2Proof.Machine
end

