-- ==== Sys2Proof/Laws/Decode.lean ====
section
/-!
SUPPORT. What each step of DECODE can do when it answers a next state (R111 to R118).
-/

namespace Sys2Proof.Machine

variable {s t : State} {present : Bool}

/-- D-CHECK fails or starts the validation pass. -/
theorem decodeCheck_ok (hp : s.phase = .check) (h : decodeCheck present s = .ok t) :
    ((present = false ∨ s.srcLen = 0) ∧ t = raiseFail .null s) ∨
    (present = true ∧ s.srcLen ≠ 0 ∧ t = (s.setV 0).enter .validate) := by
  have hn := readReg_of_holds (s := s) (r := .srcLen) (by simp [Reg.holdsValue, hp])
  simp only [decodeCheck, hn, ok_bind, stored_srcLen] at h
  cases present <;> by_cases h0 : s.srcLen = 0 <;> simp_all [raiseFail]

/-- D-VALIDATE fails on a character outside the allowed set, else moves on by one. -/
theorem decodeValidate_ok (hp : s.phase = .validate) (h : decodeValidate s = .ok t) :
    ∃ c, s.source[s.v]? = some c ∧
      ((allowed c = false ∧ t = raiseFail .char s) ∨
       (allowed c = true ∧
        t = (s.setV (s.v + 1)).enter (if s.v + 1 = s.srcLen then .length else .validate))) := by
  have hn := readReg_of_holds (s := s) (r := .srcLen) (by simp [Reg.holdsValue, hp])
  have hv := readReg_of_holds (s := s) (r := .v) (by simp [Reg.holdsValue, hp])
  simp only [decodeValidate, hn, hv, ok_bind, stored_srcLen, stored_v, bind_ok] at h
  obtain ⟨c, hc, h⟩ := h
  refine ⟨c, readSrc_ok.mp hc, ?_⟩
  cases ha : allowed c
  · exact .inl ⟨rfl, by simpa [ha, eq_comm] using h⟩
  · exact .inr ⟨rfl, by simpa [ha, eq_comm] using h⟩

/-- D-LENGTH fails on a length that is no multiple of 4, else fixes OUT_LEN. -/
theorem decodeLength_ok (hp : s.phase = .length) (h : decodeLength s = .ok t) :
    (s.srcLen % 4 ≠ 0 ∧ t = raiseFail .len4 s) ∨
    (s.srcLen % 4 = 0 ∧ ∃ c1 c2, s.source[s.srcLen - 1]? = some c1 ∧ s.source[s.srcLen - 2]? = some c2 ∧
      t = (s.setOutLen (s.srcLen / 4 * 3 - padFlag c1 - padFlag c2)).enter .alloc) := by
  have hn := readReg_of_holds (s := s) (r := .srcLen) (by simp [Reg.holdsValue, hp])
  simp only [decodeLength, hn, ok_bind, stored_srcLen] at h
  split at h
  · exact .inl ⟨‹_›, by simpa [eq_comm] using h⟩
  · simp only [bind_ok] at h
    obtain ⟨c1, h1, c2, h2, h⟩ := h
    exact .inr ⟨by omega, c1, c2, readSrc_ok.mp h1, readSrc_ok.mp h2, by simpa [eq_comm] using h⟩

/-- D-ALLOC is one request. -/
theorem decodeAlloc_ok (hp : s.phase = .alloc) (h : decodeAlloc s = .ok t) :
    t = s.requestBuffer s.outLen := by
  have hn := readReg_of_holds (s := s) (r := .outLen) (by simp [Reg.holdsValue, hp])
  simpa [decodeAlloc, hn, eq_comm] using h

theorem readSextet_ok {c : Byte} {x : Sextet} : readSextet c = .ok x ↔ sextetOf c = some x := by
  unfold readSextet
  cases sextetOf c <;> simp

/-- The four symbols of a group, when each is there and allowed. -/
theorem readSymbols_ok {i : Nat} {g : Group} (h : s.readSymbols i = .ok g) :
    ∃ c0 c1 c2 c3 x0 x1 x2 x3, s.source[i]? = some c0 ∧ s.source[i + 1]? = some c1 ∧
      s.source[i + 2]? = some c2 ∧ s.source[i + 3]? = some c3 ∧ sextetOf c0 = some x0 ∧
      sextetOf c1 = some x1 ∧ sextetOf c2 = some x2 ∧ sextetOf c3 = some x3 ∧
      g = groupOfSextets x0 x1 x2 x3 := by
  simp only [State.readSymbols, bind_ok, readSrc_ok, readSextet_ok] at h
  obtain ⟨c0, h0, c1, h1, c2, h2, c3, h3, x0, g0, x1, g1, x2, g2, x3, g3, hg⟩ := h
  exact ⟨c0, c1, c2, c3, x0, x1, x2, x3, h0, h1, h2, h3, g0, g1, g2, g3, by simpa [eq_comm] using hg⟩

/-- One write of a group below OUT_LEN. -/
theorem emit_of_lt {b : Byte} {d : NamedBuffer} (hp : s.phase = .run) (hd : s.dst = some d)
    (hr : s.outLen ≤ d.buf.size) (hj : s.j < s.outLen) :
    s.emit b = .ok ((s.setDst (some { d with buf := d.buf.write s.j b })).setJ (s.j + 1)) :=
  (emit_ok hp).mpr (.inl ⟨hj, d, hd, Nat.lt_of_lt_of_le hj hr, rfl⟩)

/-- Nothing is written once J has reached OUT_LEN. -/
theorem emit_of_le {b : Byte} (hp : s.phase = .run) (hj : s.outLen ≤ s.j) : s.emit b = .ok s :=
  (emit_ok hp).mpr (.inr ⟨hj, rfl⟩)

/-- The three writes of a group, when DST has room: as many of the three bytes as OUT_LEN leaves (R117). -/
theorem emit_three {x y z : Byte} {d : NamedBuffer} (hp : s.phase = .run) (hd : s.dst = some d)
    (hr : s.outLen ≤ d.buf.size) :
    (do
      let a ← s.emit x
      let b ← a.emit y
      b.emit z) = .ok
      ((s.setDst (some { d with buf := d.buf.writeAll s.j ([x, y, z].take (s.outLen - s.j)) })).setJ
        (s.j + min 3 (s.outLen - s.j))) := by
  let s1 := (s.setDst (some { d with buf := d.buf.write s.j x })).setJ (s.j + 1)
  let s2 := (s1.setDst (some { d with buf := (d.buf.write s.j x).write (s.j + 1) y })).setJ (s.j + 1 + 1)
  rcases Nat.lt_or_ge s.j s.outLen with h0 | h0
  · have e1 : s.emit x = .ok s1 := emit_of_lt hp hd hr h0
    rcases Nat.lt_or_ge (s.j + 1) s.outLen with h1 | h1
    · have e2 : s1.emit y = .ok s2 :=
        emit_of_lt (s := s1) (d := { d with buf := d.buf.write s.j x }) hp rfl hr h1
      rcases Nat.lt_or_ge (s.j + 1 + 1) s.outLen with h2 | h2
      · have e3 := emit_of_lt (s := s2) (b := z)
          (d := { d with buf := (d.buf.write s.j x).write (s.j + 1) y }) hp rfl hr h2
        rw [e1, ok_bind, e2, ok_bind, e3, List.take_of_length_le (by simp; omega),
          show min 3 (s.outLen - s.j) = 3 by omega]
        rfl
      · have e3 : s2.emit z = .ok s2 := emit_of_le (s := s2) hp h2
        rw [e1, ok_bind, e2, ok_bind, e3, show s.outLen - s.j = 2 by omega]
        rfl
    · have e2 : ∀ b, s1.emit b = .ok s1 := fun _ => emit_of_le (s := s1) hp h1
      rw [e1, ok_bind, e2, ok_bind, e2, show s.outLen - s.j = 1 by omega]
      rfl
  · have e : ∀ b, s.emit b = .ok s := fun _ => emit_of_le hp h0
    rw [e, ok_bind, e, ok_bind, e, show s.outLen - s.j = 0 by omega]
    cases d
    simp [Buffer.writeAll, State.setDst, State.setJ, ← hd]

/-- D-GROUP: one group read, up to three bytes written. -/
theorem decodeGroup_ok (hp : s.phase = .run) (h : decodeGroup s = .ok t) :
    ∃ g c, s.readSymbols s.i = .ok g ∧
      (do
        let a ← (s.setAcc g).emit (octet0 g)
        let b ← a.emit (octet1 g)
        b.emit (octet2 g)) = .ok c ∧
      t = (c.setI (s.i + 4)).enter (if s.i + 4 = s.srcLen then .finish else .run) := by
  have hn := readReg_of_holds (s := s) (r := .srcLen) (by simp [Reg.holdsValue, hp])
  have hi := readReg_of_holds (s := s) (r := .i) (by simp [Reg.holdsValue, hp])
  simp only [decodeGroup, hn, hi, ok_bind, stored_srcLen, stored_i, bind_ok] at h
  obtain ⟨g, hg, a, ha, b, hb, c, hc, h⟩ := h
  exact ⟨g, c, hg, by simp only [ha, hb, hc, ok_bind], (Except.ok.inj h).symm⟩

/-- One write of a group changes DST and J only, and moves J by at most one, never past OUT_LEN. -/
theorem emit_keeps {b : Byte} (hp : s.phase = .run) (h : s.emit b = .ok t) :
    t = { s with dst := t.dst, j := t.j } ∧ s.j ≤ t.j ∧ t.j ≤ s.j + 1 ∧ (s.j < s.outLen → t.j ≤ s.outLen) ∧
    (s.outLen ≤ s.j → t = s) := by
  rcases (emit_ok hp).mp h with ⟨hj, d, hd, hk, rfl⟩ | ⟨hj, rfl⟩
  · exact ⟨rfl, by simp, by simp, fun _ => hj, fun h => absurd hj (by omega)⟩
  · exact ⟨rfl, by simp, by simp, fun h => absurd h (by omega), fun _ => rfl⟩

/-- DECODE answers a next state only through one of its six steps. -/
theorem execDecode_next (h : execDecode present s = .next t) :
    (s.phase = .check ∧ decodeCheck present s = .ok t) ∨ (s.phase = .validate ∧ decodeValidate s = .ok t) ∨
    (s.phase = .length ∧ decodeLength s = .ok t) ∨ (s.phase = .alloc ∧ decodeAlloc s = .ok t) ∨
    (s.phase = .run ∧ decodeGroup s = .ok t) ∨ (s.phase = .finish ∧ decodeFinish s = .ok t) := by
  unfold execDecode at h
  cases hp : s.phase <;> simp_all [toOutcome_next]

end Sys2Proof.Machine
end

