-- ==== Sys2Proof/Laws/Encode.lean ====
section
/-!
SUPPORT. What each step of ENCODE can do when it answers a next state (R91 to R95).
-/

namespace Sys2Proof.Machine

variable {s t : State} {present : Bool}

/-- E-CHECK fails or moves on to LENGTH. -/
theorem encodeCheck_ok (hp : s.phase = .check) (h : encodeCheck present s = .ok t) :
    ((present = false ∨ s.srcLen = 0) ∧ t = raiseFail .null s) ∨
    (present = true ∧ s.srcLen ≠ 0 ∧ t = s.enter .length) := by
  have hn := readReg_of_holds (s := s) (r := .srcLen) (by simp [Reg.holdsValue, hp])
  simp only [encodeCheck, hn, ok_bind, stored_srcLen] at h
  cases present <;> by_cases h0 : s.srcLen = 0 <;> simp_all [raiseFail]

/-- E-LENGTH fails or fixes OUT_LEN. -/
theorem encodeLength_ok (hp : s.phase = .length) (h : encodeLength s = .ok t) :
    (s.maxLen < encodedLength s.srcLen + 1 ∧ t = raiseFail .ovf s) ∨
    (encodedLength s.srcLen + 1 ≤ s.maxLen ∧ t = (s.setOutLen (encodedLength s.srcLen)).enter .alloc) := by
  have hn := readReg_of_holds (s := s) (r := .srcLen) (by simp [Reg.holdsValue, hp])
  simp only [encodeLength, hn, ok_bind, stored_srcLen] at h
  split at h
  · exact .inl ⟨‹_›, by simpa [eq_comm] using h⟩
  · exact .inr ⟨by omega, by simpa [eq_comm] using h⟩

/-- E-ALLOC is one request. -/
theorem encodeAlloc_ok (hp : s.phase = .alloc) (h : encodeAlloc s = .ok t) :
    t = s.requestBuffer (s.outLen + 1) := by
  have hn := readReg_of_holds (s := s) (r := .outLen) (by simp [Reg.holdsValue, hp])
  simpa [encodeAlloc, hn, eq_comm] using h

/-- A byte of a group: read from the source when it is real, else zero. -/
theorem readOctet_ok {i k m : Nat} {b : Byte} : s.readOctet i k m = .ok b ↔
    if m < k then s.source[i + m]? = some b else b = 0 := by
  unfold State.readOctet
  split
  · exact readSrc_ok
  · rw [Except.ok.injEq]
    exact eq_comm

/-- The octets of a group, when every real byte can be read. -/
theorem readOctets_ok {i k : Nat} {g : Group} (h : s.readOctets i k = .ok g) :
    ∃ o0 o1 o2, s.source[i]? = some o0 ∧
      (if 2 ≤ k then s.source[i + 1]? = some o1 else o1 = 0) ∧
      (if 3 ≤ k then s.source[i + 2]? = some o2 else o2 = 0) ∧ g = groupOfOctets o0 o1 o2 := by
  simp only [State.readOctets, bind_ok, readOctet_ok] at h
  obtain ⟨o0, h0, o1, h1, o2, h2, hg⟩ := h
  exact ⟨o0, o1, o2, readSrc_ok.mp h0, h1, h2, by simpa [eq_comm] using hg⟩

theorem symbolsOf_length (k : Nat) (g : Group) : (symbolsOf k g).length = 4 := rfl

theorem symbolsOf_ne_nil (k : Nat) (g : Group) : symbolsOf k g ≠ [] := by simp [symbolsOf]

/-- E-GROUP: one group read, four symbols written. -/
theorem encodeGroup_ok (hp : s.phase = .run) (h : encodeGroup s = .ok t) :
    ∃ g d, s.readOctets s.i (realBytes s.srcLen s.i) = .ok g ∧ s.dst = some d ∧ s.j + 4 ≤ d.buf.size ∧
      t = { s with
            acc := g
            dst := some { d with buf := d.buf.writeAll s.j (symbolsOf (realBytes s.srcLen s.i) g) }
            i := s.i + realBytes s.srcLen s.i
            j := s.j + 4
            phase := if s.i + realBytes s.srcLen s.i = s.srcLen then .finish else .run } := by
  have hn := readReg_of_holds (s := s) (r := .srcLen) (by simp [Reg.holdsValue, hp])
  have hi := readReg_of_holds (s := s) (r := .i) (by simp [Reg.holdsValue, hp])
  have hj := readReg_of_holds (s := s) (r := .j) (by simp [Reg.holdsValue, hp])
  simp only [encodeGroup, hn, hi, hj, ok_bind, stored_srcLen, stored_i, stored_j, bind_ok] at h
  obtain ⟨g, hg, a, ha, ht⟩ := h
  rw [writeDstBytes_ok (symbolsOf_ne_nil _ _)] at ha
  obtain ⟨d, hd, hk, rfl⟩ := ha
  exact ⟨g, d, hg, hd, hk, (Except.ok.inj ht).symm⟩

/-- E-FINISH: the terminator, then the delivery. -/
theorem encodeFinish_ok (hp : s.phase = .finish) (h : encodeFinish s = .ok t) :
    ∃ d, s.dst = some d ∧ s.j < d.buf.size ∧
      t = { s with
            delivered := { d with buf := d.buf.write s.j terminator } :: s.delivered
            dst := none
            res := some { null := false, len := s.outLen, buf := some d.name }
            phase := .done } := by
  have hj := readReg_of_holds (s := s) (r := .j) (by simp [Reg.holdsValue, hp])
  simp only [encodeFinish, hj, ok_bind, stored_j, bind_ok, writeDst_ok] at h
  obtain ⟨a, ⟨d, hd, hk, rfl⟩, h⟩ := h
  rw [publish_ok (by simpa using hp)] at h
  obtain ⟨e, he, rfl⟩ := h
  simp only [State.setDst_dst, Option.some.injEq] at he
  subst he
  exact ⟨d, hd, hk, rfl⟩

/-- ENCODE answers a next state only through one of its five steps. -/
theorem execEncode_next (h : execEncode present s = .next t) :
    (s.phase = .check ∧ encodeCheck present s = .ok t) ∨ (s.phase = .length ∧ encodeLength s = .ok t) ∨
    (s.phase = .alloc ∧ encodeAlloc s = .ok t) ∨ (s.phase = .run ∧ encodeGroup s = .ok t) ∨
    (s.phase = .finish ∧ encodeFinish s = .ok t) := by
  unfold execEncode at h
  cases hp : s.phase <;> simp_all [toOutcome_next]

end Sys2Proof.Machine
end

