-- ==== Sys2Proof/Laws/PerInstr.lean ====
section
/-!
SUPPORT. One statement about every instruction as syntax: it is well formed and its word decodes to it (R72, R73).
-/

namespace Sys2Proof.Laws.RoundTrip

/-- The word of the instruction is one the decoder reads back as it. -/
def Statement (i : Sys2Proof.Instr) : Prop :=
  i.wf = true ∧ Sys2Proof.decodeCmd (Sys2Proof.encodeCmd i) = i

theorem encode (present : Bool) : Statement (.encode present) := by
  cases present <;> exact ⟨rfl, by decide⟩

theorem decode (present : Bool) : Statement (.decode present) := by
  cases present <;> exact ⟨rfl, by decide⟩

end Sys2Proof.Laws.RoundTrip
end

