-- ==== Sys2Proof/Laws/Step.lean ====
section
/-!
SUPPORT. What one step of the machine can do: the move of the host, of the environment, or of the core.
-/

namespace Sys2Proof.Machine

variable {s t : State}

/-- START answers a next state in two ways: not accepted, or latched (R153). -/
theorem hostStart_next {c : Command} (h : hostStart c s = .next t) :
    (s.readyFlag = false ∧ t = s) ∨ (s.readyFlag = true ∧ c.wf s.lenw = true ∧ t = s.latch c) := by
  unfold hostStart at h
  split at h
  · rename_i hr
    exact .inl ⟨by simpa using hr, by simpa [eq_comm] using h⟩
  · split at h
    · simp at h
    · split at h
      · simp at h
      · rename_i hr hl hs
        refine .inr ⟨by simpa using hr, ?_, by simpa [eq_comm] using h⟩
        simp_all [Command.wf]

/-- RELEASE answers a next state only for a buffer the host owns (R154). -/
theorem hostRelease_next {name : Nat} (h : hostRelease name s = .next t) :
    (∃ b, findBuffer name s.delivered = some b) ∧
      t = { s with delivered := s.delivered.filter fun d => d.name != name } := by
  unfold hostRelease at h
  cases hf : findBuffer name s.delivered with
  | none => simp [hf] at h
  | some b => exact ⟨⟨b, rfl⟩, by simpa [hf, eq_comm] using h⟩

/-- The core's turn: nothing in IDLE and DONE, else a step of the operation CMD selects. -/
theorem coreTurn_next (h : coreTurn s = .next t) :
    (s.readyFlag = true ∧ t = s) ∨ (s.readyFlag = false ∧ exec (decodeCmd s.cmd) s = .next t) := by
  unfold coreTurn State.operation at h
  cases hr : s.readyFlag
  · exact .inr ⟨rfl, by simpa [hr] using h⟩
  · exact .inl ⟨rfl, by simpa [hr, eq_comm] using h⟩

/-- Every step is the move of the agent whose turn it is. -/
theorem step_next (h : step s = .next t) :
    (s.turns = [] ∧ coreTurn s = .next t) ∨
    (∃ rest, s.turns = .core :: rest ∧ coreTurn { s with turns := rest } = .next t) ∨
    (∃ c rest, s.turns = .start c :: rest ∧ hostStart c { s with turns := rest } = .next t) ∨
    (∃ name rest, s.turns = .release name :: rest ∧ hostRelease name { s with turns := rest } = .next t) ∨
    (∃ rest, s.turns = .reset :: rest ∧ t = resetEvent { s with turns := rest }) := by
  unfold step at h
  split at h
  · exact .inl ⟨‹_›, h⟩
  · exact .inr (.inl ⟨_, ‹_›, h⟩)
  · exact .inr (.inr (.inl ⟨_, _, ‹_›, h⟩))
  · exact .inr (.inr (.inr (.inl ⟨_, _, ‹_›, h⟩)))
  · exact .inr (.inr (.inr (.inr ⟨_, ‹_›, by simpa [eq_comm] using h⟩)))

/-- The operation the command word selects, by its two fields (R13, R72). -/
theorem decodeCmd_eq (w : CmdWord) :
    decodeCmd w = if w.getLsbD 0 then .decode (w.getLsbD 1) else .encode (w.getLsbD 1) := by
  revert w; decide

theorem exec_operation (s : State) : exec (decodeCmd s.cmd) s =
    if s.cmdOp then execDecode s.cmdPresent s else execEncode s.cmdPresent s := by
  rw [decodeCmd_eq]
  unfold State.cmdOp State.cmdPresent
  cases s.cmd.getLsbD 0 <;> rfl

/-! ### Runs -/

@[simp] theorem runSteps_zero (s : State) : runSteps 0 s = .next s := rfl

theorem runSteps_succ_of_next {k : Nat} (h : step s = .next t) : runSteps (k + 1) s = runSteps k t := by
  simp [runSteps, h]

/-- A run is cut anywhere. -/
theorem runSteps_add {k l : Nat} (h : runSteps k s = .next t) : runSteps (k + l) s = runSteps l t := by
  induction k generalizing s with
  | zero =>
    have : s = t := by simpa using h
    rw [this, Nat.zero_add]
  | succ k ih =>
    rw [show k + 1 + l = (k + l) + 1 by omega]
    simp only [runSteps] at h ⊢
    cases hs : step s with
    | next u => exact ih (by simpa [hs] using h)
    | fault f => simp [hs] at h
    | refused r => simp [hs] at h

end Sys2Proof.Machine
end

