-- ==== Sys2Proof/Tests/Slice0.lean ====
section
/-!
SUPPORT. The model's own tests: refused ill-formed terms, command words written out from the spec, one step per test against
the vectors of spec/95_test_vectors.md, and for every statement with hypotheses a state and operands that meet them.
-/

namespace Sys2Proof.Tests

open Sys2Proof Sys2Proof.Machine

/-! ### WellFormed: each check refuses a term -/

/-- LENW = 3, so MAX_LEN = 7: a length of 8 does not fit (R14). -/
theorem test_length_eight_does_not_fit_lenw_three :
    (Command.wf 3 ⟨0b00#2, 8, none⟩ = false) ∧ Command.wf 3 ⟨0b00#2, 7, none⟩ = true := by decide

/-- R178: a source of 2 bytes does not serve a length of 3; it serves 2, and a longer one does too. -/
theorem test_source_shorter_than_length_refused :
    Command.wf 32 ⟨0b10#2, 3, some [0x4D, 0x61]⟩ = false ∧ Command.wf 32 ⟨0b10#2, 2, some [0x4D, 0x61]⟩ = true ∧
    Command.wf 32 ⟨0b10#2, 1, some [0x4D, 0x61]⟩ = true := by decide

/-- R178: CMD_PRESENT = 1 without a buffer; R71: CMD_PRESENT = 0 needs none, whatever the length. -/
theorem test_present_bit_needs_a_buffer :
    Command.wf 32 ⟨0b11#2, 0, none⟩ = false ∧ Command.wf 32 ⟨0b01#2, 5, none⟩ = true := by decide

/-! ### Decoding: words written out bit by bit from R71 and R72 (bit 1 CMD_PRESENT, bit 0 CMD_OP) -/

theorem test_decode_encode_words :
    decodeBytes [0b00000000#8] = .ok (.encode false, []) ∧ decodeBytes [0b00000010#8] = .ok (.encode true, []) := by
  decide

theorem test_decode_decode_words :
    decodeBytes [0b00000001#8] = .ok (.decode false, []) ∧ decodeBytes [0b00000011#8] = .ok (.decode true, []) := by
  decide

/-- A byte with a bit above the two of CMD holds no command word; nor does no byte. -/
theorem test_decode_refuses_by_name :
    decodeBytes [0b00000110#8] = .error (.notACommandWord 0b00000110#8) ∧ decodeBytes [] = .error .noByte ∧
    decodeTableWord 2 0b100 = none := by decide

/-! ### Tables: V-T1 to V-T4 -/

theorem test_forward_table_ends :
    fwd 0 = 0x41 ∧ fwd 25 = 0x5A ∧ fwd 26 = 0x61 ∧ fwd 51 = 0x7A ∧ fwd 52 = 0x30 ∧ fwd 61 = 0x39 ∧ fwd 62 = 0x2B ∧
    fwd 63 = 0x2F := by decide

theorem test_inverse_table_ends :
    inv 0 = some 62 ∧ inv 4 = some 63 ∧ inv 5 = some 52 ∧ inv 14 = some 61 ∧ inv 22 = some 0 ∧ inv 47 = some 25 ∧
    inv 54 = some 26 ∧ inv 79 = some 51 ∧ inv 80 = none ∧ inv 18 = some 255 := by decide

theorem test_sextet_values :
    sextetOf 0x3D = some 0 ∧ sextetOf 0x41 = some 0 ∧ sextetOf 0x51 = some 16 ∧ sextetOf 0x2F = some 63 ∧
    sextetOf 0x7A = some 51 ∧ sextetOf 0x21 = none := by decide

theorem test_allowed_edges :
    allowed 0x2A = false ∧ allowed 0x2B = true ∧ allowed 0x2D = false ∧ allowed 0x3A = false ∧ allowed 0x40 = false ∧
    allowed 0x5B = false ∧ allowed 0x7A = true ∧ allowed 0x7B = false ∧ allowed 0x80 = false := by decide

/-- V-E and S1: the first group of "Many": octets 4D 61 6E, sextets 19 22 5 46. -/
theorem test_group_layout :
    groupOfOctets 0x4D 0x61 0x6E = 0x4D616E ∧ sextet0 0x4D616E = 19 ∧ sextet1 0x4D616E = 22 ∧ sextet2 0x4D616E = 5 ∧
    sextet3 0x4D616E = 46 ∧ groupOfSextets 19 22 5 46 = 0x4D616E ∧ octet0 0x4D616E = 0x4D ∧
    octet1 0x4D616E = 0x61 ∧ octet2 0x4D616E = 0x6E := by decide

/-! ### States for the tests -/

/-- A core with LENW = 4 that has delivered one buffer (the byte 0x41, under the name 0) in an earlier operation. -/
def base : State :=
  { State.reset with
    lenw := 4
    delivered := [⟨0, ⟨1, [(0, 0x41)]⟩⟩]
    nextName := 1
    answers := [true] }

/-- In phase `p` of an ENCODE of these bytes. -/
def encoding (bytes : List Byte) (p : Phase) : State :=
  { base with phase := p, cmd := 0b10#2, srcLen := bytes.length, src := some bytes, res := none }

/-- In phase `p` of a DECODE of this text. -/
def decoding (text : List Byte) (p : Phase) : State :=
  { base with phase := p, cmd := 0b11#2, srcLen := text.length, src := some text, res := none }

/-- OUT_LEN set, and the buffer granted under the name 1 with the given bytes written. -/
def granted (s : State) (outLen size i j : Nat) (cells : Memory) : State :=
  { s with outLen := outLen, dst := some ⟨1, ⟨size, cells⟩⟩, nextName := 2, i := i, j := j }

/-- "Ma" (4D 61). -/
def ma : List Byte := [0x4D, 0x61]

/-- "TWE=" (54 57 45 3D), the text of "Ma". -/
def twe : List Byte := [0x54, 0x57, 0x45, 0x3D]

/-- "QUJ!" (51 55 4A 21). -/
def bad : List Byte := [0x51, 0x55, 0x4A, 0x21]

def encodeRunState : State := granted (encoding ma .run) 4 5 0 0 []

def encodeFinishState : State :=
  granted (encoding ma .finish) 4 5 2 4 [(0, 0x54), (1, 0x57), (2, 0x45), (3, 0x3D)]

def decodeRunState : State := granted (decoding twe .run) 2 2 0 0 []

def decodeFinishState : State := granted (decoding twe .finish) 2 2 4 2 [(0, 0x4D), (1, 0x61)]

/-- After the DECODE of "TWE=": two buffers delivered. -/
def decodeDoneState : State :=
  { decoding twe .done with
    res := some ⟨false, 2, some 1⟩
    delivered := [⟨1, ⟨2, [(0, 0x4D), (1, 0x61)]⟩⟩, ⟨0, ⟨1, [(0, 0x41)]⟩⟩]
    nextName := 2 }

/-- After the ENCODE of "M": "TQ==" and the terminator. -/
def encodeDoneState : State :=
  { encoding [0x4D] .done with
    res := some ⟨false, 4, some 1⟩
    delivered := [⟨1, ⟨5, [(0, 0x54), (1, 0x51), (2, 0x3D), (3, 0x3D), (4, 0x00)]⟩⟩, ⟨0, ⟨1, [(0, 0x41)]⟩⟩]
    nextName := 2 }

/-- After a failure. -/
def failedState : State := { decoding bad .done with res := some ⟨true, 0, none⟩ }

/-! ### The steps: at most two tests per instruction -/

/-- The next state, where there is one. -/
def nextOf : Host.Outcome State Fault Refusal → Option State
  | .next t => some t
  | .fault _ => none
  | .refused _ => none

/-- P1: E-GROUP of "Ma", k = 2: ACC = 0x4D6100, writes 54 57 45 3D; I = 2, J = 4, FINISH. -/
theorem test_encode_group_of_two_bytes :
    nextOf (exec (.encode true) encodeRunState) = some { encodeFinishState with acc := 0x4D6100 } := by decide

/-- P5: LENW = 4: 10 bytes need 17 > 15, so F_OVF; 9 bytes need 13. -/
theorem test_encode_size_test_at_its_edge :
    (nextOf (exec (.encode true) (encoding [0, 1, 2, 3, 4, 5, 6, 7, 8, 9] .length))).map
      (fun t => (t.phase, t.hostResNull, t.answers)) = some (.done, some true, [true]) ∧
    (nextOf (exec (.encode true) (encoding [0, 1, 2, 3, 4, 5, 6, 7, 8] .length))).map
      (fun t => (t.phase, t.outLen)) = some (.alloc, 12) := by decide

/-- P1: D-GROUP of "TWE=": writes 4D 61, the third byte is dropped. -/
theorem test_decode_group_drops_the_last_byte :
    nextOf (exec (.decode true) decodeRunState) = some { decodeFinishState with acc := 0x4D6100 } := by decide

/-- R122 (i), (c): "QQ=A" and "Q=Q=" have OUT_LEN = 2; "QUJDR" has length 5 and fails. -/
theorem test_decode_length_counts_each_padding :
    (nextOf (exec (.decode true) (decoding [0x51, 0x51, 0x3D, 0x41] .length))).map
      (fun t => (t.phase, t.outLen)) = some (.alloc, 2) ∧
    (nextOf (exec (.decode true) (decoding [0x51, 0x3D, 0x51, 0x3D] .length))).map
      (fun t => (t.phase, t.outLen)) = some (.alloc, 2) ∧
    (nextOf (exec (.decode true) (decoding [0x51, 0x55, 0x4A, 0x44, 0x52] .length))).map
      (fun t => (t.phase, t.hostResNull)) = some (.done, some true) := by decide

/-- The first step after reset with an instruction placed runs it: E-CHECK of no source, D-CHECK of no bytes (R91, R111). -/
theorem test_placed_instruction_runs_next :
    (nextOf (step (State.reset.withFetchWord 2 0b00))).map (fun t => (t.phase, t.hostResNull)) =
      some (.done, some true) ∧
    (nextOf (step (State.reset.withFetchWord 2 0b11))).map (fun t => (t.phase, t.hostResLen)) =
      some (.done, some 0) := by decide

/-! ### The invariant holds in concrete states of every phase -/

theorem test_inv_base : base.Inv := by constructor <;> decide
theorem test_inv_encode_check : (encoding ma .check).Inv := by constructor <;> decide
theorem test_inv_encode_length : (encoding ma .length).Inv := by constructor <;> decide
theorem test_inv_encode_alloc : ({ encoding ma .alloc with outLen := 4 } : State).Inv := by constructor <;> decide
theorem test_inv_encode_run : encodeRunState.Inv := by constructor <;> decide
theorem test_inv_encode_finish : encodeFinishState.Inv := by constructor <;> decide
theorem test_inv_encode_done : encodeDoneState.Inv := by constructor <;> decide
theorem test_inv_decode_check : (decoding twe .check).Inv := by constructor <;> decide
theorem test_inv_decode_validate : (decoding twe .validate).Inv := by constructor <;> decide
theorem test_inv_decode_length : (decoding twe .length).Inv := by constructor <;> decide
theorem test_inv_decode_alloc : ({ decoding twe .alloc with outLen := 2 } : State).Inv := by constructor <;> decide
theorem test_inv_decode_run : decodeRunState.Inv := by constructor <;> decide
theorem test_inv_decode_finish : decodeFinishState.Inv := by constructor <;> decide
theorem test_inv_decode_done : decodeDoneState.Inv := by constructor <;> decide
theorem test_inv_failed : failedState.Inv := by constructor <;> decide

/-! ### Witnesses: for each statement with hypotheses, what meets them -/

/-- "M". -/
def m : List Byte := [0x4D]

/-- "Man". -/
def man : List Byte := [0x4D, 0x61, 0x6E]

theorem test_witness_InverseTableIsTheAlphabetValues :
    inv 79 = some 51 ∧ (fwd 51).toNat = 79 + 43 ∧ inv 0 = some 62 ∧ (fwd 62).toNat = 0 + 43 ∧ inv 53 = some 255 ∧
    inv 80 = none := by decide

/-- The least and the greatest byte that holds no command word. -/
theorem test_witness_CommandWordsDecodeAsListed :
    4 ≤ (0x04 : Byte).toNat ∧ 4 ≤ (0xFF : Byte).toNat ∧
    decodeBytes [0xFF, 0x00] = .error (.notACommandWord 0xFF) := by decide

theorem test_witness_TablesAreInverse :
    inv 0 = some 62 ∧ (fwd 62).toNat = 0 + 43 ∧ inv 79 = some 51 ∧ (fwd 51).toNat = 79 + 43 := by decide

theorem test_witness_GroupViewsAgree :
    0x4D616E = groupOfOctets 0x4D 0x61 0x6E ∧ 0x4D616E = groupOfSextets 19 22 5 46 := by decide

theorem test_witness_SextetIsTheInverseTableOnTheAllowedSet :
    allowed 0x2A = false ∧ allowed 0x7B = false ∧ allowed 0x2B = true ∧ allowed 0x7A = true ∧ allowed 0x3D = true := by
  decide

theorem test_witness_ResetAbandonsTheOperation :
    ({ encodeRunState with turns := [.reset, .core] } : State).turns = .reset :: [.core] := by decide

theorem test_witness_StepRunsTheLatchedInstruction :
    encodeRunState.readyFlag = false ∧ decodeBytes [encodeRunState.cmd.setWidth 8] = .ok (.encode true, []) ∧
    encodeRunState.turns = [] ∧ ({ encodeRunState with turns := [.core] } : State).turns = .core :: [] := by decide

theorem test_witness_CoreSitsInIdleAndDone :
    base.readyFlag = true ∧ failedState.readyFlag = true ∧ base.turns = [] ∧
    ({ base with turns := [.core] } : State).turns = .core :: [] := by decide

/-- A command of the greatest length that LENW = 4 admits, 15. -/
def longest : Command := ⟨0b11#2, 15, some (List.replicate 15 0x41)⟩

theorem test_witness_StartLatchesOnlyWhenReady :
    ({ base with turns := [.start longest] } : State).turns = .start longest :: [] ∧ base.readyFlag = true ∧
    longest.wf base.lenw = true ∧ ({ encodeRunState with turns := [.start longest] } : State).readyFlag = false := by
  decide

/-- Lengths 16 (too wide) and 15 with 14 bytes (not served), at LENW = 4. -/
theorem test_witness_StartOutsideTheHostDutiesIsRefused :
    base.readyFlag = true ∧ 2 ^ base.lenw ≤ 16 ∧ 15 < 2 ^ base.lenw ∧ (0b10#2).getLsbD 1 = true ∧
    ∀ bytes, (some (List.replicate 14 (0x41 : Byte))) = some bytes → bytes.length < 15 := by
  refine ⟨by decide, by decide, by decide, by decide, ?_⟩
  rintro bytes ⟨⟩
  decide

theorem test_witness_ReleaseEndsTheBuffer :
    findBuffer 0 base.delivered = some ⟨1, [(0, 0x41)]⟩ ∧
    ({ base with turns := [.release 0] } : State).turns = .release 0 :: [] := by decide

theorem test_witness_ReleaseOfANameNotOwnedIsRefused :
    (∀ d ∈ base.delivered, d.name ≠ 1) ∧ ({ base with turns := [.release 1] } : State).turns = .release 1 :: [] := by
  decide

theorem test_witness_EarlierResultDoesNotReachTheNextOperation :
    ({ failedState with turns := [.start longest] } : State).turns = .start longest :: [] ∧
    failedState.readyFlag = true ∧ longest.wf failedState.lenw = true := by decide

theorem test_witness_EncodeCheckStep :
    (encoding [] .check).phase = .check ∧ (encoding [] .check).srcLen = 0 ∧ (encoding m .check).srcLen = 1 := by decide

/-- 9 and 10 bytes at LENW = 4, and the edge for LENW = 32. -/
theorem test_witness_EncodeLengthStep :
    (encoding [0, 1, 2, 3, 4, 5, 6, 7, 8] .length).phase = .length ∧ ¬ 2 ^ 4 - 1 < 4 * ((9 + 2) / 3) + 1 ∧
    2 ^ 4 - 1 < 4 * ((10 + 2) / 3) + 1 ∧ 3 * ((2 ^ 4 - 1 - 1) / 4) = 9 ∧
    ¬ 2 ^ 32 - 1 < 4 * ((3221225469 + 2) / 3) + 1 ∧ 2 ^ 32 - 1 < 4 * ((3221225470 + 2) / 3) + 1 := by decide

theorem test_witness_EncodeAllocStep :
    (encoding ma .alloc).phase = .alloc ∧ (encoding ma .alloc).draw.1 = true ∧
    ({ encoding ma .alloc with answers := [false] } : State).draw.1 = false := by decide

/-- Groups of 1, 2 and 3 real bytes. -/
theorem test_witness_EncodeGroupStep :
    ∀ bytes ∈ [m, ma, man],
      let s := granted (encoding bytes .run) 4 5 0 0 []
      s.phase = .run ∧ s.i < s.srcLen ∧ s.source.length = s.srcLen ∧ s.dst = some ⟨1, ⟨5, []⟩⟩ ∧ s.j + 4 ≤ 5 := by
  decide

theorem test_witness_EncodeFinishStep :
    encodeFinishState.phase = .finish ∧
    encodeFinishState.dst = some ⟨1, ⟨5, [(0, 0x54), (1, 0x57), (2, 0x45), (3, 0x3D)]⟩⟩ ∧ encodeFinishState.j < 5 := by
  decide

/-- E-CHECK, E-LENGTH, E-ALLOC, E-GROUP and E-FINISH each answer a next state where the invariant holds. -/
theorem test_witness_EncodeFrame :
    ∀ s ∈ [encoding ma .check, encoding ma .length, { encoding ma .alloc with outLen := 4 }, encodeRunState,
        encodeFinishState],
      s.Inv ∧ (nextOf (exec (.encode true) s)).isSome = true := by
  simp only [List.forall_mem_cons, List.not_mem_nil, false_implies, implies_true, and_true]
  exact ⟨⟨test_inv_encode_check, by decide⟩, ⟨test_inv_encode_length, by decide⟩, ⟨test_inv_encode_alloc, by decide⟩,
    ⟨test_inv_encode_run, by decide⟩, test_inv_encode_finish, by decide⟩

/-- Bytes outside the stored ones: index 4 of DST in RUN, index 3 in FINISH, and a delivered buffer. -/
theorem test_witness_EncodeFrame_outside :
    encodeRunState.dst = some ⟨1, ⟨5, []⟩⟩ ∧ encodeRunState.j + 4 ≤ 4 ∧ 3 ≠ encodeFinishState.j ∧
    encodeFinishState.byteAt 1 3 = some 0x3D ∧ encodeRunState.byteAt 0 0 = some 0x41 := by decide

theorem test_witness_EncodedLengthIsExact : 1 ≤ 1 ∧ encodedLength 1 = 4 := by decide

theorem test_witness_PaddingStandsOnlyAtTheEnd :
    m ≠ [] ∧ encodeText m = [0x54, 0x51, 0x3D, 0x3D] ∧ encodeText ma = twe ∧
    encodeText man = [0x54, 0x57, 0x46, 0x75] := by decide

theorem test_witness_DecodeCheckStep :
    (decoding [] .check).phase = .check ∧ (decoding [] .check).srcLen = 0 ∧ (decoding twe .check).srcLen = 4 := by decide

/-- The last character, refused and accepted. -/
theorem test_witness_DecodeValidateStep :
    ∀ text ∈ [twe, bad],
      let s : State := { decoding text .validate with v := 3 }
      s.phase = .validate ∧ s.v < s.srcLen ∧ s.source.length = s.srcLen := by decide

/-- Length 1 (refused) and length 4. -/
theorem test_witness_DecodeLengthStep :
    ∀ text ∈ [m, twe],
      let s := decoding text .length
      s.phase = .length ∧ 1 ≤ s.srcLen ∧ s.source.length = s.srcLen := by decide

theorem test_witness_DecodeOutputLengthIsInRange :
    (decoding twe .length).Inv ∧ (decoding twe .length).phase = .length ∧
    (nextOf (exec (.decode true) (decoding twe .length))).map (·.phase) = some .alloc :=
  ⟨test_inv_decode_length, by decide⟩

theorem test_witness_DecodeAllocStep :
    (decoding twe .alloc).phase = .alloc ∧ (decoding twe .alloc).draw.1 = true ∧
    ({ decoding twe .alloc with answers := [false] } : State).draw.1 = false := by decide

theorem test_witness_DecodeGroupStep :
    decodeRunState.phase = .run ∧ decodeRunState.i + 4 ≤ decodeRunState.srcLen ∧
    decodeRunState.source.length = decodeRunState.srcLen ∧ decodeRunState.dst = some ⟨1, ⟨2, []⟩⟩ ∧
    decodeRunState.outLen ≤ 2 ∧ decodeRunState.source = twe ∧ sextetOf 0x54 = some 19 ∧ sextetOf 0x57 = some 22 ∧
    sextetOf 0x45 = some 4 ∧ sextetOf 0x3D = some 0 := by decide

theorem test_witness_DecodeFinishStep :
    decodeFinishState.phase = .finish ∧ decodeFinishState.dst = some ⟨1, ⟨2, [(0, 0x4D), (1, 0x61)]⟩⟩ := by decide

theorem test_witness_DecodeFrame :
    ∀ s ∈ [decoding twe .check, decoding twe .validate, decoding twe .length,
        { decoding twe .alloc with outLen := 2 }, decodeRunState, decodeFinishState],
      s.Inv ∧ (nextOf (exec (.decode true) s)).isSome = true := by
  simp only [List.forall_mem_cons, List.not_mem_nil, false_implies, implies_true, and_true]
  exact ⟨⟨test_inv_decode_check, by decide⟩, ⟨test_inv_decode_validate, by decide⟩,
    ⟨test_inv_decode_length, by decide⟩, ⟨test_inv_decode_alloc, by decide⟩, ⟨test_inv_decode_run, by decide⟩,
    test_inv_decode_finish, by decide⟩

/-- Bytes outside the stored ones: index 2 of DST in RUN (OUT_LEN = 2), any index in FINISH. -/
theorem test_witness_DecodeFrame_outside :
    decodeRunState.dst = some ⟨1, ⟨2, []⟩⟩ ∧ min (decodeRunState.j + 3) decodeRunState.outLen ≤ 2 ∧
    decodeFinishState.byteAt 1 1 = some 0x61 := by decide

/-- R122 (i): "QQ==QUJD" is all allowed characters and decodes as "QQAAQUJD" does. -/
theorem test_witness_InteriorPaddingActsAsTheCharacterA :
    [0x51, 0x51, 0x3D, 0x3D, 0x51, 0x55, 0x4A, 0x44].all allowed = true ∧
    decodeText [0x51, 0x51, 0x3D, 0x3D, 0x51, 0x55, 0x4A, 0x44] = [0x41, 0, 0, 0x41, 0x42, 0x43] := by decide

theorem test_witness_NoStepOutsideTheOperationsPhases :
    base.phase = .idle ∧ (decoding twe .validate).phase = .validate ∧ failedState.phase = .done := by decide

theorem test_witness_AllocatorAnswersFreelyWithFreshBuffers :
    base.Inv ∧ base.draw.1 = true ∧ ({ base with answers := [] } : State).answers = [] ∧
    ({ base with answers := [false] } : State).draw.1 = false := ⟨test_inv_base, by decide⟩

/-- D-VALIDATE of "QUJ!" at V = 3 fails; so does a denied request. -/
theorem test_witness_FailureEntryWritesOnlyTheResult :
    ({ decoding bad .validate with v := 3 } : State).Inv ∧
    ({ encoding ma .alloc with outLen := 4, answers := [false] } : State).Inv ∧
    (decoding bad .validate).readyFlag = false ∧
    (nextOf (coreTurn { decoding bad .validate with v := 3 })).bind (·.hostResNull) = some true ∧
    (nextOf (coreTurn { encoding ma .alloc with outLen := 4, answers := [false] })).bind (·.hostResNull) =
      some true :=
  ⟨by constructor <;> decide, by constructor <;> decide, by decide⟩

/-- A state of either operation, and one for each kind of turn. -/
theorem test_witness_EveryStepKeepsTheInvariant :
    encodeRunState.Inv ∧ decodeRunState.Inv ∧ ({ base with turns := [.start longest] } : State).Inv ∧
    ({ base with turns := [.release 0] } : State).Inv ∧ ({ encodeRunState with turns := [.reset] } : State).Inv ∧
    (nextOf (step encodeRunState)).isSome = true ∧ (nextOf (step decodeRunState)).isSome = true ∧
    (nextOf (step { base with turns := [.start longest] })).isSome = true ∧
    (nextOf (step { base with turns := [.release 0] })).isSome = true ∧
    (nextOf (step { encodeRunState with turns := [.reset] })).isSome = true :=
  ⟨test_inv_encode_run, test_inv_decode_run, by constructor <;> decide, by constructor <;> decide,
    by constructor <;> decide, by decide⟩

theorem test_witness_InvariantGivesTheSpecsBounds :
    failedState.Inv ∧ encodeDoneState.Inv ∧ decodeDoneState.Inv ∧ encodeRunState.Inv ∧ encodeFinishState.Inv ∧
    decodeFinishState.Inv ∧
    failedState.phase = .done ∧ failedState.hostResNull = some true ∧ encodeDoneState.hostResNull = some false ∧
    encodeDoneState.cmdOp = false ∧ encodeDoneState.hostResLen = some 4 ∧ decodeDoneState.hostResNull = some false ∧
    encodeRunState.phase = .run ∧ encodeFinishState.cmdOp = false ∧ decodeFinishState.cmdOp = true :=
  ⟨test_inv_failed, test_inv_encode_done, test_inv_decode_done, test_inv_encode_run, test_inv_encode_finish,
    test_inv_decode_finish, by decide⟩

theorem test_witness_LengthRegistersFitTheirWidth :
    decodeFinishState.Inv ∧ encodeDoneState.Inv ∧ decodeFinishState.readReg .i = .ok 4 ∧ Reg.i ≠ .cmd ∧
    encodeDoneState.hostResLen = some 4 := ⟨test_inv_decode_finish, test_inv_encode_done, by decide⟩

theorem test_witness_NoStepFaultsUnderTheInvariant : decodeRunState.Inv ∧ base.Inv :=
  ⟨test_inv_decode_run, test_inv_base⟩

theorem test_witness_DeliveredBuffersAreFullyWritten :
    encodeDoneState.Inv ∧ decodeDoneState.Inv ∧ encodeDoneState.delivered.length = 2 ∧ encodeDoneState.phase = .done ∧ encodeDoneState.hostResBuf = some 1 ∧
    encodeDoneState.hostResLen = some 4 ∧ (findBuffer 1 encodeDoneState.delivered).map (·.size) = some 5 ∧
    encodeDoneState.hostByte 1 4 = some 0x00 ∧ decodeDoneState.hostByte 1 1 = some 0x61 :=
  ⟨test_inv_encode_done, test_inv_decode_done, by decide⟩

theorem test_witness_EveryStepKeepsMemoryCanonical :
    encodeFinishState.memoryWf ∧ (nextOf (step encodeFinishState)).isSome = true := by decide

theorem test_witness_NoStepChangesTheParameter : (nextOf (step base)).map (·.lenw) = some 4 := by decide

theorem test_witness_EncodeRunIsTheWholeFunction :
    (encoding ma .check).Inv ∧ (encoding ma .check).phase = .check ∧ (encoding ma .check).cmdOp = false ∧ (encoding ma .check).turns = [] ∧
    encodeSteps (encoding ma .check) = 5 := ⟨test_inv_encode_check, by decide⟩

theorem test_witness_DecodeRunIsTheWholeFunction :
    (decoding twe .check).Inv ∧ (decoding twe .check).phase = .check ∧ (decoding twe .check).cmdOp = true ∧ (decoding twe .check).turns = [] ∧
    decodeSteps (decoding twe .check) = 9 ∧ decodeSteps (decoding bad .check) = 5 ∧
    bad.all allowed = false := ⟨test_inv_decode_check, by decide⟩

/-- Every other test passed, and one of them not. -/
theorem test_witness_AllocatorIsAskedLastAndOnce :
    (encoding ma .check).Inv ∧ (decoding twe .check).Inv ∧ ¬ (encoding ma .check).maxLen < encodedLength 2 + 1 ∧
    bad.all allowed = false ∧ twe.all allowed = true ∧ (decoding twe .check).srcLen % 4 = 0 :=
  ⟨test_inv_encode_check, test_inv_decode_check, by decide⟩

theorem test_witness_EveryOperationReachesDone :
    decodeRunState.Inv ∧ decodeRunState.readyFlag = false ∧ decodeRunState.turns = [] :=
  ⟨test_inv_decode_run, by decide⟩

theorem test_witness_DecodeUndoesEncode :
    encodeWhole 15 true ma true = some ([0x54, 0x57, 0x45, 0x3D, 0x00], 4) ∧
    decodeWhole true twe true = some (ma, 2) := by decide

theorem test_witness_RoundTripOnTheMachine :
    base.Inv ∧ base.readyFlag = true ∧ ma ≠ [] ∧ encodedLength ma.length + 1 ≤ base.maxLen :=
  ⟨test_inv_base, by decide⟩

/-- E-FINISH and D-FINISH deliver; a delivered buffer stays through a step and ends at its RELEASE. -/
theorem test_witness_SuccessfulBufferExistsUntilRelease :
    encodeFinishState.Inv ∧ encodeFinishState.readyFlag = false ∧
    (nextOf (step encodeFinishState)).bind (·.hostResNull) = some false ∧
    (findBuffer 0 encodeFinishState.delivered).isSome = true ∧ encodeFinishState.turns = [] ∧
    (nextOf (step { base with turns := [.release 0] })).isSome = true := ⟨test_inv_encode_finish, by decide⟩

end Sys2Proof.Tests
end

/-! ## O47: the parameter

LENW is a parameter (R5, R31): no shared operation, no step of ENCODE or DECODE and no move of the host or of the
environment writes it.
-/

namespace Sys2Proof.Machine

variable {s t : State} {present : Bool}

/-! ### The shared operations -/

@[simp] theorem draw_lenw (s : State) : s.draw.2.lenw = s.lenw := by
  rw [draw_frame s]

@[simp] theorem requestBuffer_lenw (s : State) (n : Nat) : (s.requestBuffer n).lenw = s.lenw := by
  rcases requestBuffer_eq s n with ⟨-, h⟩ | ⟨-, h⟩ <;> simp [h]

/-- The three writes of a DECODE group change DST and J only (R117). -/
theorem emit_three_keeps {x y z : Byte} (hp : s.phase = .run)
    (h : (do
      let a ← s.emit x
      let b ← a.emit y
      b.emit z) = .ok t) : t = { s with dst := t.dst, j := t.j } := by
  simp only [bind_ok] at h
  obtain ⟨a, ha, b, hb, hc⟩ := h
  have ea : a = { s with dst := a.dst, j := a.j } := (emit_keeps hp ha).1
  have hpa : a.phase = .run := by rw [ea]; exact hp
  have eb : b = { a with dst := b.dst, j := b.j } := (emit_keeps hpa hb).1
  have hpb : b.phase = .run := by rw [eb]; exact hpa
  have et : t = { b with dst := t.dst, j := t.j } := (emit_keeps hpb hc).1
  rw [et, eb, ea]

/-! ### The steps of the two operations -/

theorem execEncode_lenw (h : execEncode present s = .next t) : t.lenw = s.lenw := by
  rcases execEncode_next h with ⟨hp, h⟩ | ⟨hp, h⟩ | ⟨hp, h⟩ | ⟨hp, h⟩ | ⟨hp, h⟩
  · -- E-CHECK
    rcases encodeCheck_ok hp h with ⟨-, rfl⟩ | ⟨-, -, rfl⟩ <;> simp
  · -- E-LENGTH
    rcases encodeLength_ok hp h with ⟨-, rfl⟩ | ⟨-, rfl⟩ <;> simp
  · -- E-ALLOC
    simp [encodeAlloc_ok hp h]
  · -- E-GROUP
    obtain ⟨g, d, -, -, -, rfl⟩ := encodeGroup_ok hp h
    rfl
  · -- E-FINISH
    obtain ⟨d, -, -, rfl⟩ := encodeFinish_ok hp h
    rfl

theorem execDecode_lenw (h : execDecode present s = .next t) : t.lenw = s.lenw := by
  rcases execDecode_next h with ⟨hp, h⟩ | ⟨hp, h⟩ | ⟨hp, h⟩ | ⟨hp, h⟩ | ⟨hp, h⟩ | ⟨hp, h⟩
  · -- D-CHECK
    rcases decodeCheck_ok hp h with ⟨-, rfl⟩ | ⟨-, -, rfl⟩ <;> simp
  · -- D-VALIDATE
    obtain ⟨c, -, ⟨-, rfl⟩ | ⟨-, rfl⟩⟩ := decodeValidate_ok hp h <;> simp
  · -- D-LENGTH
    obtain ⟨-, rfl⟩ | ⟨-, c1, c2, -, -, rfl⟩ := decodeLength_ok hp h <;> simp
  · -- D-ALLOC
    simp [decodeAlloc_ok hp h]
  · -- D-GROUP
    obtain ⟨g, c, -, hc, rfl⟩ := decodeGroup_ok hp h
    have ec : c = { s.setAcc g with dst := c.dst, j := c.j } := emit_three_keeps (s := s.setAcc g) hp hc
    rw [ec]
    rfl
  · -- D-FINISH
    obtain ⟨d, -, rfl⟩ := (publish_ok hp).mp h
    rfl

theorem exec_lenw {i : Instr} (h : exec i s = .next t) : t.lenw = s.lenw := by
  cases i with
  | encode present => exact execEncode_lenw h
  | decode present => exact execDecode_lenw h

/-! ### The moves -/

theorem coreTurn_lenw (h : coreTurn s = .next t) : t.lenw = s.lenw := by
  rcases coreTurn_next h with ⟨-, rfl⟩ | ⟨-, h⟩
  · rfl
  · exact exec_lenw h

theorem hostStart_lenw {c : Command} (h : hostStart c s = .next t) : t.lenw = s.lenw := by
  rcases hostStart_next h with ⟨-, rfl⟩ | ⟨-, -, rfl⟩ <;> rfl

theorem hostRelease_lenw {name : Nat} (h : hostRelease name s = .next t) : t.lenw = s.lenw := by
  obtain ⟨-, rfl⟩ := hostRelease_next h
  rfl

theorem step_lenw (h : step s = .next t) : t.lenw = s.lenw := by
  rcases step_next h with ⟨-, h⟩ | ⟨rest, -, h⟩ | ⟨c, rest, -, h⟩ | ⟨name, rest, -, h⟩ | ⟨rest, -, rfl⟩
  · exact coreTurn_lenw h
  · exact coreTurn_lenw (s := { s with turns := rest }) h
  · exact hostStart_lenw (s := { s with turns := rest }) h
  · exact hostRelease_lenw (s := { s with turns := rest }) h
  · exact resetEvent_lenw _

/-- Settles O47: reset sets LENW to its default, and every move of the core, the host and the environment keeps it. -/
theorem noStepChangesTheParameter : Obligations.NoStepChangesTheParameter :=
  ⟨rfl, fun _ _ => step_lenw⟩

end Sys2Proof.Machine

/-! ## The invariant: every step keeps it (O39, O40)

One lemma per way a step can end: a failure, a granted request, one more group, the delivery, START, RELEASE, reset.
-/

namespace Sys2Proof.Machine

variable {s t : State} {present : Bool}

/-! ### Length arithmetic (R97, R115) -/

theorem encodedLength_mono {m n : Nat} (h : m ≤ n) : encodedLength m ≤ encodedLength n := by
  unfold encodedLength
  omega

theorem four_le_encodedLength {n : Nat} (h : 1 ≤ n) : 4 ≤ encodedLength n := by
  unfold encodedLength
  omega

/-- One group of ENCODE makes four symbols, whether it is the last one or not. -/
theorem encodedLength_add_realBytes {n i : Nat} (h : i < n) (h3 : i % 3 = 0) :
    encodedLength (i + realBytes n i) = encodedLength i + 4 := by
  unfold encodedLength realBytes
  omega

theorem padAt_le_one (text : List Byte) (k : Nat) : padAt text k ≤ 1 := by
  unfold padAt
  split <;> omega

theorem padAt_of_getElem? {text : List Byte} {k : Nat} {c : Byte} (h : text[k]? = some c) :
    padAt text k = padFlag c := by
  simp [padAt, padFlag, h]

theorem decodedLength_le (text : List Byte) : decodedLength text ≤ 3 * (text.length / 4) := by
  unfold decodedLength
  omega

theorem decodedLength_pos {text : List Byte} (h : 4 ≤ text.length) : 1 ≤ decodedLength text := by
  have h1 := padAt_le_one text (text.length - 1)
  have h2 := padAt_le_one text (text.length - 2)
  unfold decodedLength
  omega

/-! ### Readings of the invariant -/

namespace State.Inv

/-- The inputs still to come stand in no clause of the invariant. -/
theorem withInputs (h : s.Inv) (turns : List Turn) (answers : List Bool) (draws : Nat) :
    ({ s with turns := turns, answers := answers, draws := draws } : State).Inv :=
  { h with }

theorem source_length (h : s.Inv) (hp : s.phase.pastCheck) : s.source.length = s.srcLen := by
  refine h.source_held ?_ (h.past_check hp).1
  rcases hp with hp | hp | hp | hp | hp <;> simp [State.readyFlag, Phase.ready, hp]

theorem dst_eq_none (h : s.Inv) (hp : ¬ s.phase.looping) : s.dst = none :=
  Option.not_isSome_iff_eq_none.mp fun hd => hp (h.dst_exists.mp hd)

theorem srcLen_pos (h : s.Inv) (hp : s.phase.pastCheck) : 1 ≤ s.srcLen := (h.past_check hp).2

/-- A DECODE whose OUT_LEN is fixed has a text of at least one group (R114, R115). -/
theorem decode_outLen_bounds (h : s.Inv) (hp : s.phase.sized) (hop : s.cmdOp = true) :
    s.srcLen % 4 = 0 ∧ 4 ≤ s.srcLen ∧ 1 ≤ s.outLen ∧ s.outLen ≤ 3 * (s.srcLen / 4) := by
  obtain ⟨h4, hout⟩ := h.decode_sized hp hop
  have hpast : s.phase.pastCheck := Or.inr (Or.inr hp)
  have hpos := h.srcLen_pos hpast
  have hlen := h.source_length hpast
  have hge : 4 ≤ s.srcLen := by omega
  refine ⟨h4, hge, ?_, ?_⟩
  · rw [hout]
    exact decodedLength_pos (by omega)
  · rw [hout, ← hlen]
    exact decodedLength_le _

/-- The request of either operation fits LENW bits (R92, R115). -/
theorem outLen_le (h : s.Inv) (hp : s.phase.sized) :
    (if s.cmdOp then 1 else 4) ≤ s.outLen ∧ s.requestSize ≤ s.maxLen := by
  have hsrc := h.srcLen_le
  cases hop : s.cmdOp
  · obtain ⟨hout, hle⟩ := h.encode_sized hp hop
    have := four_le_encodedLength (h.srcLen_pos (Or.inr (Or.inr hp)))
    simp [State.requestSize, hop]
    omega
  · obtain ⟨h4, hge, hpos, hle⟩ := h.decode_outLen_bounds hp hop
    simp [State.requestSize, hop]
    omega

/-- I never passes SRC_LEN and J never passes OUT_LEN (R32 (c)). -/
theorem indices_le (h : s.Inv) (hp : s.phase.looping) : s.i ≤ s.srcLen ∧ s.j ≤ s.outLen := by
  have hi : s.i ≤ s.srcLen := by
    rcases hp with hp | hp
    · exact (h.run_index hp).1.le
    · exact (h.finish_index hp).le
  refine ⟨hi, ?_⟩
  cases hop : s.cmdOp
  · rw [h.encode_indices hp hop, (h.encode_sized (Or.inr hp) hop).1]
    exact encodedLength_mono hi
  · rw [h.decode_indices hp hop]
    exact min_le_right _ _

/-- In FINISH every symbol or byte has been written: J = OUT_LEN. -/
theorem j_eq_outLen (h : s.Inv) (hp : s.phase = .finish) : s.j = s.outLen := by
  have hi := h.finish_index hp
  cases hop : s.cmdOp
  · rw [h.encode_indices (.inr hp) hop, hi, (h.encode_sized (.inr (.inr hp)) hop).1]
  · have := (h.decode_outLen_bounds (.inr (.inr hp)) hop).2.2.2
    rw [h.decode_indices (.inr hp) hop, hi]
    omega

/-! ### The ends of a step -/

/-- The failure entry is taken in phases without a destination buffer (R146). -/
theorem raiseFail (h : s.Inv) (hd : s.dst = none) (cause : FailCause) : (raiseFail cause s).Inv :=
  { h with
    source_held := by simp [State.readyFlag, Phase.ready]
    past_check := by simp
    validating := by simp
    validated := by simp
    encode_sized := by simp
    decode_sized := by simp
    encode_indices := by simp
    decode_indices := by simp
    run_index := by simp
    finish_index := by simp
    dst_exists := by simp [hd]
    dst_filled := by simp [hd]
    res_held := by simp [State.readyFlag, Phase.ready]
    idle_result := by simp
    done_result := by simp
    result_size := by simp }

/-- Any of the phases VALIDATE, LENGTH and ALLOC: what the invariant asks of them is a source, and V, the characters
or OUT_LEN as far as the phase has them; the loop has not begun. -/
theorem enterBeforeLoop (h : s.Inv) (hr : s.readyFlag = false) (hd : s.dst = none) {p : Phase} {v n : Nat}
    (hp : p = .validate ∨ p = .length ∨ p = .alloc) (hsrc : s.cmdPresent = true ∧ 1 ≤ s.srcLen)
    (hval : p = .validate → s.cmdOp = true ∧ v < s.srcLen ∧ (s.source.take v).all allowed = true)
    (hall : p ≠ .validate → s.cmdOp = true → s.source.all allowed = true)
    (henc : p = .alloc → s.cmdOp = false → n = encodedLength s.srcLen ∧ n + 1 ≤ s.maxLen)
    (hdec : p = .alloc → s.cmdOp = true → s.srcLen % 4 = 0 ∧ n = decodedLength s.source) :
    ({ s with v := v, outLen := n, phase := p } : State).Inv :=
  have hnot : ¬ p.looping ∧ p.ready = false ∧ p ≠ .idle ∧ p ≠ .done := by
    rcases hp with rfl | rfl | rfl <;> decide
  have hsized : p.sized → p = .alloc := Or.rec id fun hl => absurd hl hnot.1
  { h with
    source_held := fun _ => h.source_held hr
    past_check := fun _ => hsrc
    validating := hval
    validated := fun _ => hall
    encode_sized := fun hs => henc (hsized hs)
    decode_sized := fun hs => hdec (hsized hs)
    encode_indices := fun hl => absurd hl hnot.1
    decode_indices := fun hl => absurd hl hnot.1
    run_index := fun hl => absurd (.inl hl) hnot.1
    finish_index := fun hl => absurd (.inr hl) hnot.1
    dst_exists := by simp [hd, hnot.1]
    dst_filled := by simp [hd]
    res_held := (h.res_held.trans hr).trans hnot.2.1.symm
    idle_result := fun hi => absurd hi hnot.2.2.1
    done_result := fun hi => absurd hi hnot.2.2.2
    result_size := fun hi => absurd hi hnot.2.2.2 }

/-- VALIDATE at index `n`: from CHECK at 0, from VALIDATE one character on (R111, R113). -/
theorem enterValidate (h : s.Inv) (hr : s.readyFlag = false) (hd : s.dst = none) {n : Nat}
    (hsrc : s.cmdPresent = true) (hop : s.cmdOp = true) (hn : n < s.srcLen)
    (hall : (s.source.take n).all allowed = true) : ((s.setV n).enter .validate).Inv :=
  h.enterBeforeLoop hr hd (.inl rfl) ⟨hsrc, Nat.one_le_of_lt hn⟩ (fun _ => ⟨hop, hn, hall⟩) (absurd rfl) nofun nofun

/-- LENGTH: from CHECK for ENCODE, from the last character of VALIDATE for DECODE (R91, R113). -/
theorem enterLength (h : s.Inv) (hr : s.readyFlag = false) (hd : s.dst = none) {n : Nat}
    (hsrc : s.cmdPresent = true) (hpos : 1 ≤ s.srcLen)
    (hall : s.cmdOp = true → s.source.all allowed = true) : ((s.setV n).enter .length).Inv :=
  h.enterBeforeLoop hr hd (.inr (.inl rfl)) ⟨hsrc, hpos⟩ nofun (fun _ => hall) nofun nofun

/-- ALLOC, with the OUT_LEN of either operation (R92, R114). -/
theorem enterAlloc (h : s.Inv) (hp : s.phase = .length) {n : Nat}
    (henc : s.cmdOp = false → n = encodedLength s.srcLen ∧ n + 1 ≤ s.maxLen)
    (hdec : s.cmdOp = true → s.srcLen % 4 = 0 ∧ n = decodedLength s.source) :
    ((s.setOutLen n).enter .alloc).Inv :=
  have hpast : s.phase.pastCheck := .inr (.inl hp)
  h.enterBeforeLoop (by simp [State.readyFlag, Phase.ready, hp]) (h.dst_eq_none (by simp [hp])) (.inr (.inr rfl))
    (h.past_check hpast) nofun (fun _ => h.validated hpast (by simp [hp])) (fun _ => henc) (fun _ => hdec)

/-- A granted request starts the loop at its first group, with a buffer under a name that no other has (R93, R116). -/
theorem grantRun (h : s.Inv) (hp : s.phase = .alloc) :
    ((((s.grant s.requestSize).setI 0).setJ 0).enter .run).Inv :=
  have hr : s.readyFlag = false := by simp [State.readyFlag, Phase.ready, hp]
  have hd : s.dst = none := h.dst_eq_none (by simp [hp])
  have hbuf : s.buffers = s.delivered := by simp [State.buffers, hd]
  have hused : ∀ d ∈ s.delivered, d.name < s.nextName := hbuf ▸ h.names_used
  { h with
    source_held := fun _ => h.source_held hr
    past_check := fun _ => h.past_check (by simp [Phase.pastCheck, hp])
    validating := by simp
    validated := fun _ _ => h.validated (by simp [Phase.pastCheck, hp]) (by simp [hp])
    encode_sized := fun _ => h.encode_sized (.inl hp)
    decode_sized := fun _ => h.decode_sized (.inl hp)
    encode_indices := by simp [encodedLength]
    decode_indices := by simp
    run_index := fun _ => ⟨h.srcLen_pos (by simp [Phase.pastCheck, hp]), by simp⟩
    finish_index := by simp
    dst_exists := by simp [Phase.looping]
    dst_filled := by
      simp only [State.enter_dst, State.setJ_dst, State.setI_dst, State.grant_dst, Option.mem_some_iff]
      rintro d rfl
      exact ⟨rfl, Buffer.fresh_filledTo _⟩
    res_held := h.res_held.trans hr
    idle_result := by simp
    done_result := by simp
    result_size := by simp
    names_distinct := by
      have hnd := hbuf ▸ h.names_distinct
      simp only [State.buffers, State.enter_dst, State.setJ_dst, State.setI_dst, State.grant_dst, State.enter_delivered,
        State.setJ_delivered, State.setI_delivered, State.grant_delivered, Option.toList_some, List.singleton_append,
        List.map_cons, List.nodup_cons, List.mem_map, not_exists, not_and]
      exact ⟨fun d hm => (hused d hm).ne, hnd⟩
    names_used := by
      simp only [State.buffers, State.enter_dst, State.setJ_dst, State.setI_dst, State.grant_dst, State.enter_delivered,
        State.setJ_delivered, State.setI_delivered, State.grant_delivered, State.enter_nextName, State.setJ_nextName,
        State.setI_nextName, State.grant_nextName, Option.toList_some, List.singleton_append, List.forall_mem_cons]
      exact ⟨Nat.lt_succ_self _, fun d hm => Nat.lt_succ_of_lt (hused d hm)⟩ }

/-- The request of either operation, granted or denied (R93, R116). -/
theorem requestBuffer (h : s.Inv) (hp : s.phase = .alloc) : (s.requestBuffer s.requestSize).Inv := by
  have hdraw : s.draw.2.Inv := draw_frame s ▸ h.withInputs s.turns _ _
  have hphase : s.draw.2.phase = .alloc := by rw [draw_frame s]; exact hp
  rcases requestBuffer_eq s s.requestSize with ⟨-, he⟩ | ⟨-, he⟩
  · have hsize : s.draw.2.requestSize = s.requestSize := by rw [draw_frame s]; rfl
    rw [he, ← hsize]
    exact hdraw.grantRun hphase
  · rw [he]
    exact hdraw.raiseFail (hdraw.dst_eq_none (by simp [hphase])) _

/-- One group of either operation: I and J move on together, DST is written up to the new J, and the loop ends when
I has reached SRC_LEN (R94, R117). -/
theorem nextGroup (h : s.Inv) (hp : s.phase = .run) {d : NamedBuffer} (hd : s.dst = some d) (g : Group) {b : Buffer}
    {i j : Nat} {p : Phase} (hsize : b.size = d.buf.size) (hfill : b.filledTo j)
    (hnext : p = .run ∧ i < s.srcLen ∧ i % (if s.cmdOp then 4 else 3) = 0 ∨ p = .finish ∧ i = s.srcLen)
    (henc : s.cmdOp = false → j = encodedLength i)
    (hdec : s.cmdOp = true → j = min (3 * (i / 4)) s.outLen) :
    ({ s with acc := g, dst := some { d with buf := b }, i := i, j := j, phase := p } : State).Inv :=
  have hr : s.readyFlag = false := by simp [State.readyFlag, Phase.ready, hp]
  have hloop : p.looping := hnext.imp And.left And.left
  have hne : p ≠ .validate ∧ p ≠ .idle ∧ p ≠ .done ∧ p.ready = false := by
    rcases hloop with rfl | rfl <;> decide
  have hold := (h.dst_filled d hd).1
  have hbuf : s.buffers = d :: s.delivered := by simp [State.buffers, hd]
  have hused : ∀ e ∈ d :: s.delivered, e.name < s.nextName := hbuf ▸ h.names_used
  have hnd : ((d :: s.delivered).map (·.name)).Nodup := hbuf ▸ h.names_distinct
  { h with
    source_held := fun _ => h.source_held hr
    past_check := fun _ => h.past_check (by simp [Phase.pastCheck, hp])
    validating := fun hv => absurd hv hne.1
    validated := fun _ _ => h.validated (by simp [Phase.pastCheck, hp]) (by simp [hp])
    encode_sized := fun _ => h.encode_sized (by simp [Phase.sized, hp])
    decode_sized := fun _ => h.decode_sized (by simp [Phase.sized, hp])
    encode_indices := fun _ => henc
    decode_indices := fun _ => hdec
    run_index := fun hrun => by
      obtain ⟨-, hi⟩ | ⟨hfin, -⟩ := hnext
      · exact hi
      · exact absurd (hrun.symm.trans hfin) (by decide)
    finish_index := fun hfin => by
      obtain ⟨hrun, -⟩ | ⟨-, hi⟩ := hnext
      · exact absurd (hfin.symm.trans hrun) (by decide)
      · exact hi
    dst_exists := by simp [hloop]
    dst_filled := by
      simp only [Option.mem_some_iff]
      rintro _ rfl
      exact ⟨hsize.trans hold, hfill⟩
    res_held := (h.res_held.trans hr).trans hne.2.2.2.symm
    idle_result := fun hi => absurd hi hne.2.1
    done_result := fun hi => absurd hi hne.2.2.1
    result_size := fun hi => absurd hi hne.2.2.1
    names_distinct := by simpa [State.buffers] using hnd
    names_used := by simpa [State.buffers] using hused }

/-- The delivery: the full buffer passes to the host under the name it had (R95, R118). -/
theorem deliver (h : s.Inv) (hp : s.phase = .finish) {d : NamedBuffer} (hd : s.dst = some d) {b : Buffer}
    (hsize : b.size = s.requestSize) (hfill : b.filledTo b.size) :
    ({ s with
        delivered := { d with buf := b } :: s.delivered, dst := none
        res := some { null := false, len := s.outLen, buf := some d.name }, phase := .done } : State).Inv :=
  have hbuf : s.buffers = d :: s.delivered := by simp [State.buffers, hd]
  have hused : ∀ e ∈ d :: s.delivered, e.name < s.nextName := hbuf ▸ h.names_used
  have hnd : ((d :: s.delivered).map (·.name)).Nodup := hbuf ▸ h.names_distinct
  have hout := h.outLen_le (by simp [Phase.sized, hp])
  have hle : s.outLen ≤ s.requestSize ∧ 1 ≤ s.requestSize := by
    have := hout.1
    unfold State.requestSize
    split <;> simp_all
  { h with
    source_held := by simp [State.readyFlag, Phase.ready]
    past_check := by simp
    validating := by simp
    validated := by simp
    encode_sized := by simp
    decode_sized := by simp
    encode_indices := by simp
    decode_indices := by simp
    run_index := by simp
    finish_index := by simp
    dst_exists := by simp
    dst_filled := by simp
    res_held := by simp [State.readyFlag, Phase.ready]
    idle_result := by simp
    done_result := by
      simp only [Option.mem_some_iff]
      rintro - _ rfl
      exact ⟨hle.1.trans hout.2, hout.1, rfl⟩
    result_size := by
      simp only [Option.mem_some_iff]
      rintro - _ rfl _ ⟨⟩
      refine ⟨hused d List.mem_cons_self, fun c hc => ?_⟩
      have : b = c := by simpa [findBuffer] using hc
      exact this ▸ hsize
    delivered_full := List.forall_mem_cons.mpr ⟨⟨hsize ▸ hle.2, hfill⟩, h.delivered_full⟩
    names_distinct := by simpa [State.buffers] using hnd
    names_used := by simpa [State.buffers] using hused }

/-! ### The moves of the host and of the environment -/

/-- START (R153). -/
theorem latch (h : s.Inv) (hr : s.readyFlag = true) {c : Command} (hc : c.wf s.lenw = true) : (s.latch c).Inv :=
  have hd : s.dst = none := h.dst_eq_none (by
    rintro (hp | hp) <;> simp [State.readyFlag, Phase.ready, hp] at hr)
  have hwf : c.len ≤ Config.maxLen s.lenw ∧ c.sourceServed = true := by
    simpa [Command.wf, Command.lengthFits] using hc
  { h with
    srcLen_le := hwf.1
    source_held := fun _ hpres => by
      have hserved := hwf.2
      unfold Command.sourceServed at hserved
      rw [show c.cmd.getLsbD 1 = true from hpres] at hserved
      cases hsrc : c.src with
      | none => simp [hsrc] at hserved
      | some bytes => simpa [State.source, hsrc] using hserved
    past_check := by simp
    validating := by simp
    validated := by simp
    encode_sized := by simp
    decode_sized := by simp
    encode_indices := by simp
    decode_indices := by simp
    run_index := by simp
    finish_index := by simp
    dst_exists := by simp [hd]
    dst_filled := by simp [hd]
    res_held := by simp [State.readyFlag, Phase.ready]
    idle_result := by simp
    done_result := by simp
    result_size := by simp }

/-- RELEASE (R154). -/
theorem release (h : s.Inv) (name : Nat) :
    ({ s with delivered := s.delivered.filter fun d => d.name != name } : State).Inv :=
  have hsub : (State.buffers { s with delivered := s.delivered.filter fun d => d.name != name }).Sublist s.buffers :=
    (List.Sublist.refl _).append List.filter_sublist
  { h with
    result_size := fun hp r hr m hm => by
      obtain ⟨hlt, hsize⟩ := h.result_size hp r hr m hm
      refine ⟨hlt, fun b hb => hsize b ?_⟩
      rw [findBuffer_filter] at hb
      split at hb
      · cases hb
      · exact hb
    delivered_full := fun d hm => h.delivered_full d (List.mem_of_mem_filter hm)
    names_distinct := h.names_distinct.sublist (hsub.map _)
    names_used := fun d hm => h.names_used d (hsub.subset hm) }

end State.Inv

/-- Reset, at power-on or as an event: IDLE with no operation; of the buffers only those delivered before are left
(R170, R172). -/
theorem resetEvent_inv (hl : Config.minLenw ≤ s.lenw)
    (hfull : ∀ d ∈ s.delivered, 1 ≤ d.buf.size ∧ d.buf.filledTo d.buf.size)
    (hnd : (s.delivered.map (·.name)).Nodup) (hused : ∀ d ∈ s.delivered, d.name < s.nextName) :
    (resetEvent s).Inv where
  lenw_ge := hl
  srcLen_le := Nat.zero_le _
  source_held := by simp [State.readyFlag, Phase.ready, State.reset]
  past_check := by simp [State.reset]
  validating := by simp [State.reset]
  validated := by simp [State.reset]
  encode_sized := by simp [State.reset]
  decode_sized := by simp [State.reset]
  encode_indices := by simp [State.reset]
  decode_indices := by simp [State.reset]
  run_index := by simp [State.reset]
  finish_index := by simp [State.reset]
  dst_exists := by simp [State.reset]
  dst_filled := by simp [State.reset]
  res_held := by simp [State.readyFlag, Phase.ready, State.reset]
  idle_result := fun _ => rfl
  done_result := by simp [State.reset]
  result_size := by simp [State.reset]
  delivered_full := hfull
  names_distinct := hnd
  names_used := hused

/-- Settles O39: the state after power-on is what a reset event leaves where nothing has been delivered. -/
theorem resetMeetsTheInvariant : Obligations.ResetMeetsTheInvariant :=
  resetEvent_inv (s := State.reset) (by decide) (by simp [State.reset]) (by simp [State.reset]) (by simp [State.reset])

/-! ### The steps of the two operations -/

theorem execEncode_inv (h : s.Inv) (hpres : present = s.cmdPresent) (hop : s.cmdOp = false)
    (hs : execEncode present s = .next t) : t.Inv := by
  subst hpres
  rcases execEncode_next hs with ⟨hp, hs⟩ | ⟨hp, hs⟩ | ⟨hp, hs⟩ | ⟨hp, hs⟩ | ⟨hp, hs⟩
  · -- E-CHECK
    have hd : s.dst = none := h.dst_eq_none (by simp [hp])
    obtain ⟨-, rfl⟩ | ⟨hsrc, hpos, rfl⟩ := encodeCheck_ok hp hs
    · exact h.raiseFail hd _
    · exact h.enterLength (n := s.v) (by simp [State.readyFlag, Phase.ready, hp]) hd hsrc (Nat.pos_of_ne_zero hpos)
        (by simp [hop])
  · -- E-LENGTH
    obtain ⟨-, rfl⟩ | ⟨hle, rfl⟩ := encodeLength_ok hp hs
    · exact h.raiseFail (h.dst_eq_none (by simp [hp])) _
    · exact h.enterAlloc hp (fun _ => ⟨rfl, hle⟩) (by simp [hop])
  · -- E-ALLOC
    obtain rfl := encodeAlloc_ok hp hs
    have := h.requestBuffer hp
    rwa [show s.requestSize = s.outLen + 1 by simp [State.requestSize, hop]] at this
  · -- E-GROUP
    obtain ⟨g, d, -, hd, -, rfl⟩ := encodeGroup_ok hp hs
    obtain ⟨hi, hmod⟩ := h.run_index hp
    have hj := h.encode_indices (.inl hp) hop
    rw [hop] at hmod
    replace hmod : s.i % 3 = 0 := hmod
    refine h.nextGroup hp hd g (Buffer.writeAll_size _ _ _) (Buffer.writeAll_filledTo _ (h.dst_filled d hd).2) ?_
      (fun _ => ?_) (by simp [hop])
    · by_cases hend : s.i + realBytes s.srcLen s.i = s.srcLen
      · exact .inr ⟨if_pos hend, hend⟩
      · refine .inl ⟨if_neg hend, ?_⟩
        unfold realBytes at hend ⊢
        simp only [hop, Bool.false_eq_true, if_false]
        omega
    · rw [hj, encodedLength_add_realBytes hi hmod]
  · -- E-FINISH
    obtain ⟨d, hd, hlt, rfl⟩ := encodeFinish_ok hp hs
    obtain ⟨hsize, hfill⟩ := h.dst_filled d hd
    refine h.deliver hp hd hsize ?_
    have hlast : d.buf.size = s.j + 1 := by simp [hsize, h.j_eq_outLen hp, State.requestSize, hop]
    rw [Buffer.write_size, hlast]
    exact Buffer.write_filledTo _ hfill

theorem execDecode_inv (h : s.Inv) (hpres : present = s.cmdPresent) (hop : s.cmdOp = true)
    (hs : execDecode present s = .next t) : t.Inv := by
  subst hpres
  rcases execDecode_next hs with ⟨hp, hs⟩ | ⟨hp, hs⟩ | ⟨hp, hs⟩ | ⟨hp, hs⟩ | ⟨hp, hs⟩ | ⟨hp, hs⟩
  · -- D-CHECK
    have hd : s.dst = none := h.dst_eq_none (by simp [hp])
    obtain ⟨-, rfl⟩ | ⟨hsrc, hpos, rfl⟩ := decodeCheck_ok hp hs
    · exact h.raiseFail hd _
    · exact h.enterValidate (by simp [State.readyFlag, Phase.ready, hp]) hd hsrc hop (Nat.pos_of_ne_zero hpos) (by simp)
  · -- D-VALIDATE
    have hd : s.dst = none := h.dst_eq_none (by simp [hp])
    have hr : s.readyFlag = false := by simp [State.readyFlag, Phase.ready, hp]
    have hpast : s.phase.pastCheck := .inl hp
    obtain ⟨-, hlt, hall⟩ := h.validating hp
    obtain ⟨c, hc, ⟨-, rfl⟩ | ⟨ha, rfl⟩⟩ := decodeValidate_ok hp hs
    · exact h.raiseFail hd _
    · have hall' : (s.source.take (s.v + 1)).all allowed = true := by
        rw [List.take_add_one, hc]
        simp [hall, ha]
      by_cases hend : s.v + 1 = s.srcLen
      · rw [if_pos hend]
        rw [hend, ← h.source_length hpast, List.take_length] at hall'
        exact h.enterLength hr hd (h.past_check hpast).1 (h.srcLen_pos hpast) fun _ => hall'
      · rw [if_neg hend]
        exact h.enterValidate hr hd (h.past_check hpast).1 hop (by omega) hall'
  · -- D-LENGTH
    obtain ⟨-, rfl⟩ | ⟨h4, c1, c2, h1, h2, rfl⟩ := decodeLength_ok hp hs
    · exact h.raiseFail (h.dst_eq_none (by simp [hp])) _
    · refine h.enterAlloc hp (by simp [hop]) fun _ => ⟨h4, ?_⟩
      rw [← h.source_length (by simp [Phase.pastCheck, hp])] at h1 h2 ⊢
      rw [decodedLength, padAt_of_getElem? h1, padAt_of_getElem? h2]
  · -- D-ALLOC
    obtain rfl := decodeAlloc_ok hp hs
    have := h.requestBuffer hp
    rwa [show s.requestSize = s.outLen by simp [State.requestSize, hop]] at this
  · -- D-GROUP
    obtain ⟨g, c, -, hc, rfl⟩ := decodeGroup_ok hp hs
    obtain ⟨d, hd⟩ := Option.isSome_iff_exists.mp (h.dst_exists.mpr (.inl hp))
    obtain ⟨hsize, hfill⟩ := h.dst_filled d hd
    obtain ⟨hi, hmod⟩ := h.run_index hp
    obtain ⟨h4, -, -, -⟩ := h.decode_outLen_bounds (.inr (.inl hp)) hop
    have hj := h.decode_indices (.inl hp) hop
    rw [hop] at hmod
    replace hmod : s.i % 4 = 0 := hmod
    have hroom : s.outLen ≤ d.buf.size := by simp [hsize, State.requestSize, hop]
    rw [emit_three (s := s.setAcc g) hp hd hroom] at hc
    obtain rfl := Except.ok.inj hc
    refine h.nextGroup (i := s.i + 4) (j := s.j + min 3 (s.outLen - s.j)) hp hd g (Buffer.writeAll_size _ _ _) ?_ ?_
      (by simp [hop]) (fun _ => ?_)
    · have := Buffer.writeAll_filledTo ([octet0 g, octet1 g, octet2 g].take (s.outLen - s.j)) hfill
      rwa [List.length_take, Nat.min_comm] at this
    · by_cases hend : s.i + 4 = s.srcLen
      · exact .inr ⟨if_pos hend, hend⟩
      · refine .inl ⟨if_neg hend, ?_⟩
        simp only [hop, if_true]
        omega
    · omega
  · -- D-FINISH
    obtain ⟨d, hd, rfl⟩ := (publish_ok hp).mp hs
    obtain ⟨hsize, hfill⟩ := h.dst_filled d hd
    refine h.deliver hp hd hsize ?_
    have hlast : d.buf.size = s.j := by simp [hsize, h.j_eq_outLen hp, State.requestSize, hop]
    rwa [hlast]

/-! ### Every step -/

theorem coreTurn_inv (h : s.Inv) (hs : coreTurn s = .next t) : t.Inv := by
  rcases coreTurn_next hs with ⟨-, rfl⟩ | ⟨-, hs⟩
  · exact h
  · rw [exec_operation] at hs
    cases hop : s.cmdOp
    · exact execEncode_inv h rfl hop (by simpa [hop] using hs)
    · exact execDecode_inv h rfl hop (by simpa [hop] using hs)

theorem step_inv (h : s.Inv) (hs : step s = .next t) : t.Inv := by
  rcases step_next hs with ⟨-, hs⟩ | ⟨rest, -, hs⟩ | ⟨c, rest, -, hs⟩ | ⟨name, rest, -, hs⟩ | ⟨rest, -, rfl⟩
  · exact coreTurn_inv h hs
  · exact coreTurn_inv (h.withInputs rest s.answers s.draws) hs
  · rcases hostStart_next hs with ⟨-, rfl⟩ | ⟨hr, hc, rfl⟩
    · exact h.withInputs rest s.answers s.draws
    · exact (h.withInputs rest s.answers s.draws).latch hr hc
  · obtain ⟨-, rfl⟩ := hostRelease_next hs
    exact (h.withInputs rest s.answers s.draws).release name
  · have hnd : (s.delivered.map (·.name)).Nodup :=
      h.names_distinct.sublist ((List.sublist_append_right _ _).map _)
    exact resetEvent_inv (s := { s with turns := rest }) h.lenw_ge h.delivered_full hnd
      fun d hd => h.names_used d (List.mem_append_right _ hd)

/-- Settles O40: each way a step of an operation can end, and each move of the host and of the environment, keeps the
invariant. -/
theorem everyStepKeepsTheInvariant : Obligations.EveryStepKeepsTheInvariant :=
  fun _ _ => step_inv

end Sys2Proof.Machine

/-! ## What the invariant gives (O41, O42, O44) -/

namespace Sys2Proof.Machine

variable {s t : State} {present : Bool}

/-! ### Flags and results -/

/-- Settles O11: both flags are read off PHASE. -/
theorem readyAndDoneFollowPhase : Obligations.ReadyAndDoneFollowPhase := by
  intro s
  unfold State.readyFlag State.doneFlag
  cases s.phase <;> decide

theorem hostResNull_eq_some {b : Bool} : s.hostResNull = some b ↔ ∃ r, s.res = some r ∧ r.null = b := by
  simp [State.hostResNull]

theorem hostResLen_eq_some {n : Nat} : s.hostResLen = some n ↔ ∃ r, s.res = some r ∧ r.len = n := by
  simp [State.hostResLen]

theorem hostResBuf_eq_some {name : Nat} :
    s.hostResBuf = some name ↔ ∃ r, s.res = some r ∧ r.buf = some name := by
  simp [State.hostResBuf, Option.bind_eq_some_iff]

namespace State.Inv

/-- A result stands in IDLE, where it is that of reset, or in DONE (R30, R153). -/
theorem phase_of_res (h : s.Inv) {r : Results} (hr : s.res = some r) :
    s.phase = .idle ∧ r = { null := true, len := 0, buf := none } ∨ s.phase = .done := by
  have hready : s.readyFlag = true := by rw [← h.res_held, hr]; rfl
  rcases (readyAndDoneFollowPhase s).1.mp hready with hp | hp
  · exact .inl ⟨hp, Option.some.inj (hr.symm.trans (h.idle_result hp))⟩
  · exact .inr hp

theorem res_len_le (h : s.Inv) {r : Results} (hr : s.res = some r) : r.len ≤ s.maxLen := by
  obtain ⟨-, rfl⟩ | hp := h.phase_of_res hr
  · exact Nat.zero_le _
  · exact (h.done_result hp r hr).1

theorem failed_result (h : s.Inv) (hp : s.phase = .done) {r : Results} (hr : s.res = some r) (hn : r.null = true) :
    r.len = 0 ∧ r.buf = none := by
  have := (h.done_result hp r hr).2
  rwa [if_pos hn] at this

theorem succeeded_result (h : s.Inv) (hp : s.phase = .done) {r : Results} (hr : s.res = some r)
    (hn : r.null = false) : (if s.cmdOp then 1 else 4) ≤ r.len ∧ r.buf.isSome = true := by
  have := (h.done_result hp r hr).2
  rwa [if_neg (by simp [hn])] at this

/-- In the loop of DECODE, I stands at the start of a group or at the end of the text (R32 (e)). -/
theorem decode_i_mod (h : s.Inv) (hp : s.phase.looping) (hop : s.cmdOp = true) : s.i % 4 = 0 := by
  rcases hp with hp | hp
  · have := (h.run_index hp).2
    rwa [if_pos hop] at this
  · rw [h.finish_index hp]
    exact (h.decode_outLen_bounds (.inr (.inr hp)) hop).1

/-- OUT_LEN, where it holds a value, is below MAX_LEN + 1. -/
theorem outLen_le_maxLen (h : s.Inv) (hp : s.phase.sized) : s.outLen ≤ s.maxLen := by
  have hreq := (h.outLen_le hp).2
  unfold State.requestSize at hreq
  split at hreq <;> omega

end State.Inv

/-- Settles O41: (a) is R16, the others are clauses of the invariant and what `indices_le` and `decode_i_mod` add. -/
theorem invariantGivesTheSpecsBounds : Obligations.InvariantGivesTheSpecsBounds := by
  intro s h
  refine ⟨(readyAndDoneFollowPhase s).1, fun hp hn => ?_, fun hp hn => ?_, h.indices_le, h.encode_indices,
    fun hp hop => ?_, h.dst_exists⟩
  · obtain ⟨r, hr, hn⟩ := hostResNull_eq_some.mp hn
    obtain ⟨hlen, hbuf⟩ := h.failed_result hp hr hn
    exact ⟨hostResLen_eq_some.mpr ⟨r, hr, hlen⟩, by simp [State.hostResBuf, hr, hbuf]⟩
  · obtain ⟨r, hr, hn⟩ := hostResNull_eq_some.mp hn
    have hlen := (h.succeeded_result hp hr hn).1
    refine ⟨r.len, hostResLen_eq_some.mpr ⟨r, hr, rfl⟩, fun hop => ?_, ?_⟩
    · simpa [hop] using hlen
    · split at hlen <;> omega
  · have hmod := h.decode_i_mod hp hop
    have hj := h.decode_indices hp hop
    exact ⟨hmod, by omega⟩

/-- Settles O42: every readable register is at most MAX_LEN, ACC is readable in no phase. -/
theorem lengthRegistersFitTheirWidth : Obligations.LengthRegistersFitTheirWidth := by
  intro s h
  have hmax : s.maxLen < 2 ^ s.lenw := Nat.sub_lt (Nat.two_pow_pos _) Nat.one_pos
  have hsrc := h.srcLen_le
  refine ⟨fun r n hcmd hread => ?_, fun n hn => ?_⟩
  · obtain ⟨hholds, rfl⟩ := readReg_ok.mp hread
    refine Nat.lt_of_le_of_lt ?_ hmax
    cases r with
    | cmd => exact absurd rfl hcmd
    | srcLen => exact hsrc
    | i =>
      have hp : s.phase.looping := by simpa [Reg.holdsValue] using hholds
      exact (h.indices_le hp).1.trans hsrc
    | j =>
      have hp : s.phase.looping := by simpa [Reg.holdsValue] using hholds
      exact (h.indices_le hp).2.trans (h.outLen_le_maxLen (.inr hp))
    | v =>
      have hp : s.phase = .validate := by simpa [Reg.holdsValue] using hholds
      exact (h.validating hp).2.1.le.trans hsrc
    | outLen =>
      have hp : s.phase.sized := by simpa [Reg.holdsValue, Phase.sized, or_assoc] using hholds
      exact h.outLen_le_maxLen hp
    | acc => simp [Reg.holdsValue] at hholds
  · obtain ⟨r, hr, rfl⟩ := hostResLen_eq_some.mp hn
    exact Nat.lt_of_le_of_lt (h.res_len_le hr) hmax

/-! ### Delivered buffers -/

theorem findBuffer_of_mem {d : NamedBuffer} {ds : List NamedBuffer} (hnd : (ds.map (·.name)).Nodup) (hd : d ∈ ds) :
    findBuffer d.name ds = some d.buf := by
  induction ds with
  | nil => cases hd
  | cons e es ih =>
    obtain ⟨hne, hnd⟩ := List.nodup_cons.mp hnd
    rcases List.mem_cons.mp hd with rfl | hd
    · simp [findBuffer]
    · have : e.name ≠ d.name := fun he => hne (List.mem_map.mpr ⟨d, hd, he.symm⟩)
      simp [findBuffer, this, ih hnd hd]

theorem Buffer.read_of_filledTo_lt {b : Buffer} {n k : Nat} (h : b.filledTo n) (hk : k < n) :
    ∃ x, b.read k = some x := by
  have hl : b.cells.length = n := by simpa using congrArg List.length h
  exact ⟨_, by rw [Buffer.read_filledTo h, List.getElem?_eq_getElem (by simpa [hl] using hk)]⟩

theorem State.Inv.delivered_nodup (h : s.Inv) : (s.delivered.map (·.name)).Nodup :=
  h.names_distinct.sublist ((List.sublist_append_right _ _).map _)

/-- Settles O44: delivered buffers are filled and their names distinct; the size is `result_size`. -/
theorem deliveredBuffersAreFullyWritten : Obligations.DeliveredBuffersAreFullyWritten := by
  intro s h
  refine ⟨fun d hd k hk => ?_, fun name n b hp hname hn hb => ?_⟩
  · obtain ⟨x, hx⟩ := Buffer.read_of_filledTo_lt (h.delivered_full d hd).2 hk
    exact ⟨x, by simp [State.hostByte, findBuffer_of_mem h.delivered_nodup hd, hx]⟩
  · obtain ⟨r, hr, hbuf⟩ := hostResBuf_eq_some.mp hname
    obtain ⟨r', hr', rfl⟩ := hostResLen_eq_some.mp hn
    obtain rfl : r = r' := Option.some.inj (hr.symm.trans hr')
    exact (h.result_size hp r hr name hbuf).2 b hb

end Sys2Proof.Machine

/-! ## What the core's turn does to results and delivered buffers (O55) -/

namespace Sys2Proof.Machine

variable {s t : State} {present : Bool}

/-- How a step leaves the result registers and the delivered buffers: both as they were; a failure; or the delivery of
a buffer under the name that RES_BUF then holds. -/
def State.EndsIn (s t : State) : Prop :=
  (t.res = s.res ∧ t.delivered = s.delivered) ∨
  (t.hostResNull = some true ∧ t.delivered = s.delivered) ∨
  ∃ d, t.hostResBuf = some d.name ∧ t.delivered = d :: s.delivered

theorem endsIn_raiseFail (cause : FailCause) (s : State) : s.EndsIn (raiseFail cause s) :=
  .inr (.inl ⟨rfl, rfl⟩)

theorem endsIn_requestBuffer (s : State) (n : Nat) : s.EndsIn (s.requestBuffer n) := by
  have hres : s.draw.2.res = s.res := by rw [draw_frame s]
  have hdel : s.draw.2.delivered = s.delivered := by rw [draw_frame s]
  rcases requestBuffer_eq s n with ⟨-, he⟩ | ⟨-, he⟩
  · rw [he]
    exact .inl ⟨hres, hdel⟩
  · rw [he]
    exact .inr (.inl ⟨rfl, hdel⟩)

theorem execEncode_endsIn (h : execEncode present s = .next t) : s.EndsIn t := by
  rcases execEncode_next h with ⟨hp, h⟩ | ⟨hp, h⟩ | ⟨hp, h⟩ | ⟨hp, h⟩ | ⟨hp, h⟩
  · -- E-CHECK
    obtain ⟨-, rfl⟩ | ⟨-, -, rfl⟩ := encodeCheck_ok hp h
    · exact endsIn_raiseFail _ s
    · exact .inl ⟨rfl, rfl⟩
  · -- E-LENGTH
    obtain ⟨-, rfl⟩ | ⟨-, rfl⟩ := encodeLength_ok hp h
    · exact endsIn_raiseFail _ s
    · exact .inl ⟨rfl, rfl⟩
  · -- E-ALLOC
    obtain rfl := encodeAlloc_ok hp h
    exact endsIn_requestBuffer s _
  · -- E-GROUP
    obtain ⟨g, d, -, -, -, rfl⟩ := encodeGroup_ok hp h
    exact .inl ⟨rfl, rfl⟩
  · -- E-FINISH
    obtain ⟨d, -, -, rfl⟩ := encodeFinish_ok hp h
    exact .inr (.inr ⟨⟨d.name, d.buf.write s.j terminator⟩, rfl, rfl⟩)

theorem execDecode_endsIn (h : execDecode present s = .next t) : s.EndsIn t := by
  rcases execDecode_next h with ⟨hp, h⟩ | ⟨hp, h⟩ | ⟨hp, h⟩ | ⟨hp, h⟩ | ⟨hp, h⟩ | ⟨hp, h⟩
  · -- D-CHECK
    obtain ⟨-, rfl⟩ | ⟨-, -, rfl⟩ := decodeCheck_ok hp h
    · exact endsIn_raiseFail _ s
    · exact .inl ⟨rfl, rfl⟩
  · -- D-VALIDATE
    obtain ⟨c, -, ⟨-, rfl⟩ | ⟨-, rfl⟩⟩ := decodeValidate_ok hp h
    · exact endsIn_raiseFail _ s
    · exact .inl ⟨rfl, rfl⟩
  · -- D-LENGTH
    obtain ⟨-, rfl⟩ | ⟨-, c1, c2, -, -, rfl⟩ := decodeLength_ok hp h
    · exact endsIn_raiseFail _ s
    · exact .inl ⟨rfl, rfl⟩
  · -- D-ALLOC
    obtain rfl := decodeAlloc_ok hp h
    exact endsIn_requestBuffer s _
  · -- D-GROUP
    obtain ⟨g, c, -, hc, rfl⟩ := decodeGroup_ok hp h
    have ec : c = { s.setAcc g with dst := c.dst, j := c.j } := emit_three_keeps (s := s.setAcc g) hp hc
    rw [ec]
    exact .inl ⟨rfl, rfl⟩
  · -- D-FINISH
    obtain ⟨d, -, rfl⟩ := (publish_ok hp).mp h
    exact .inr (.inr ⟨d, rfl, rfl⟩)

theorem coreTurn_endsIn (h : coreTurn s = .next t) : s.EndsIn t := by
  rcases coreTurn_next h with ⟨-, rfl⟩ | ⟨-, h⟩
  · exact .inl ⟨rfl, rfl⟩
  · rw [exec_operation] at h
    split at h
    · exact execDecode_endsIn h
    · exact execEncode_endsIn h

/-- A buffer the host owns outlives the core's turn, since a delivery comes under a new name. -/
theorem coreTurn_keeps_delivered {name : Nat} {b : Buffer} (hi : s.Inv) (hb : findBuffer name s.delivered = some b)
    (h : coreTurn s = .next t) : findBuffer name t.delivered = some b := by
  obtain ⟨d, hd, rfl, rfl⟩ := findBuffer_some hb
  refine findBuffer_of_mem (coreTurn_inv hi h).delivered_nodup ?_
  obtain ⟨-, ht⟩ | ⟨-, ht⟩ | ⟨e, -, ht⟩ := coreTurn_endsIn h
  · exact ht ▸ hd
  · exact ht ▸ hd
  · exact ht ▸ List.mem_cons_of_mem _ hd

/-- While an operation is in progress only the core's turn ends it with a buffer, which the host then owns. -/
theorem coreTurn_succeeds (hr : s.res = none) (h : coreTurn s = .next t) (hn : t.hostResNull = some false) :
    ∃ name b, t.hostResBuf = some name ∧ findBuffer name t.delivered = some b := by
  obtain ⟨ht, -⟩ | ⟨ht, -⟩ | ⟨d, hname, hd⟩ := coreTurn_endsIn h
  · simp [State.hostResNull, ht, hr] at hn
  · simp [ht] at hn
  · exact ⟨d.name, d.buf, hname, by simp [hd, findBuffer]⟩

/-- Settles O55: a success is a delivery; no step but its RELEASE takes a delivered buffer away. -/
theorem successfulBufferExistsUntilRelease : Obligations.SuccessfulBufferExistsUntilRelease := by
  refine ⟨fun s t hi hready h hn => ⟨?_, ?_⟩, fun s t name b hi hb h hrel => ?_, fun s t name rest hturn h => ?_⟩
  · obtain ⟨r, hr, hn⟩ := hostResNull_eq_some.mp hn
    obtain ⟨-, rfl⟩ | hp := (step_inv hi h).phase_of_res hr
    · cases hn
    · exact hp
  · have hres : s.res = none := by
      have := hi.res_held
      rwa [hready, Option.isSome_eq_false_iff, Option.isNone_iff_eq_none] at this
    rcases step_next h with ⟨-, h⟩ | ⟨rest, -, h⟩ | ⟨c, rest, -, h⟩ | ⟨name, rest, -, h⟩ | ⟨rest, -, rfl⟩
    · exact coreTurn_succeeds hres h hn
    · exact coreTurn_succeeds (s := { s with turns := rest }) hres h hn
    · obtain ⟨-, rfl⟩ | ⟨hr, -, -⟩ := hostStart_next h
      · simp [State.hostResNull, hres] at hn
      · exact absurd (hready.symm.trans hr) (by decide)
    · obtain ⟨-, rfl⟩ := hostRelease_next h
      simp [State.hostResNull, hres] at hn
    · cases hn
  · rcases step_next h with ⟨-, h⟩ | ⟨rest, -, h⟩ | ⟨c, rest, -, h⟩ | ⟨other, rest, hturn, h⟩ | ⟨rest, -, rfl⟩
    · exact coreTurn_keeps_delivered hi hb h
    · exact coreTurn_keeps_delivered (hi.withInputs rest s.answers s.draws) hb h
    · obtain ⟨-, rfl⟩ | ⟨-, -, rfl⟩ := hostStart_next h <;> exact hb
    · obtain ⟨-, rfl⟩ := hostRelease_next h
      have hne : name ≠ other := fun he => hrel rest (he ▸ hturn)
      rw [findBuffer_filter, if_neg hne]
      exact hb
    · exact hb
  · have hstep : step s = hostRelease name { s with turns := rest } := by simp [step, hturn]
    obtain ⟨-, rfl⟩ := hostRelease_next (hstep.symm.trans h)
    rw [findBuffer_filter, if_pos rfl]

end Sys2Proof.Machine

/-! ## What stands around the core's turn and START (O12, O15, O36) -/

namespace Sys2Proof.Machine

variable {s t : State} {present : Bool}

/-- The byte that carries a command word decodes to the operation the word selects (R72). -/
theorem decodeBytes_cmd (w : CmdWord) : decodeBytes [w.setWidth 8] = .ok (decodeCmd w, []) := by
  revert w; decide

theorem coreTurn_of_not_ready (hr : s.readyFlag = false) : coreTurn s = exec (decodeCmd s.cmd) s := by
  simp [coreTurn, State.operation, hr]

/-- Settles O12: the core's turn is `exec` of the operation that the command word selects. -/
theorem stepRunsTheLatchedInstruction : Obligations.StepRunsTheLatchedInstruction := by
  intro s i hr hi
  have hcmd : decodeCmd s.cmd = i := by
    rw [decodeBytes_cmd] at hi
    exact congrArg Prod.fst (Except.ok.inj hi)
  refine ⟨fun hturn => ?_, fun rest hturn => ?_⟩
  · simp [step, hturn, coreTurn_of_not_ready hr, hcmd]
  · have hr' : State.readyFlag { s with turns := rest } = false := hr
    simp [step, hturn, coreTurn_of_not_ready hr', hcmd]

theorem lengthFits_iff {lenw : Nat} {c : Command} : c.lengthFits lenw = true ↔ c.len < 2 ^ lenw := by
  have := Nat.two_pow_pos lenw
  rw [Command.lengthFits, decide_eq_true_iff, Config.maxLen]
  omega

/-- A command that claims a source is served only by a buffer of at least its length (R178). -/
theorem sourceServed_eq_false {c : Command} (hpres : c.cmd.getLsbD 1 = true)
    (hshort : ∀ bytes, c.src = some bytes → bytes.length < c.len) : c.sourceServed = false := by
  unfold Command.sourceServed
  rw [hpres]
  cases hsrc : c.src with
  | none => rfl
  | some bytes => simpa using hshort bytes hsrc

/-- Settles O15: START tests the length first, then the source. -/
theorem startOutsideTheHostDutiesIsRefused : Obligations.StartOutsideTheHostDutiesIsRefused := by
  intro s c rest hturn hr
  have hr' : State.readyFlag { s with turns := rest } = true := hr
  have hstep : step s = hostStart c { s with turns := rest } := by simp [step, hturn]
  rw [hstep]
  refine ⟨fun hwide => ?_, fun hfits hpres hshort => ?_⟩
  · have hl : c.lengthFits s.lenw = false := by
      rw [← Bool.not_eq_true, lengthFits_iff]
      omega
    simp [hostStart, hr', hl]
  · have hl : c.lengthFits s.lenw = true := lengthFits_iff.mpr hfits
    simp [hostStart, hr', hl, sourceServed_eq_false hpres hshort]

/-- Settles O36: the phases without a step, one by one. -/
theorem noStepOutsideTheOperationsPhases : Obligations.NoStepOutsideTheOperationsPhases := by
  refine fun present s => ⟨?_, ?_⟩
  · rintro (hp | hp | hp) <;> simp [exec, execEncode, hp]
  · rintro (hp | hp) <;> simp [exec, execDecode, hp]

end Sys2Proof.Machine

/-! ## No step reads a register that holds no value (O54) -/

namespace Sys2Proof.Machine

variable {s t : State} {present : Bool}

/-- A computation that ends in no fault of a register read. -/
def ReadsHeld {α : Type} (x : Except Fault α) : Prop := ∀ r, x ≠ .error (.registerHoldsNoValue r)

@[simp] theorem readsHeld_ok {α : Type} (a : α) : ReadsHeld (.ok a) := fun _ h => by cases h

theorem ReadsHeld.bind {α β : Type} {x : Except Fault α} {f : α → Except Fault β} (hx : ReadsHeld x)
    (hf : ∀ a, x = .ok a → ReadsHeld (f a)) : ReadsHeld (x >>= f) := by
  intro r h
  rcases bind_error.mp h with h | ⟨a, ha, h⟩
  · exact hx r h
  · exact hf a ha r h

theorem readsHeld_ite {α : Type} {c : Prop} [Decidable c] {x y : Except Fault α} (hx : ReadsHeld x) (hy : ReadsHeld y) :
    ReadsHeld (if c then x else y) := by
  split
  · exact hx
  · exact hy

/-! ### The shared operations -/

theorem readReg_readsHeld {r : Reg} (h : r.holdsValue s.phase = true) : ReadsHeld (s.readReg r) :=
  readReg_of_holds h ▸ readsHeld_ok _

theorem readSrc_readsHeld (s : State) (k : Nat) : ReadsHeld (s.readSrc k) := by
  intro r h
  have := (readSrc_error.mp h).2
  cases this

theorem readOctets_readsHeld (s : State) (i k : Nat) : ReadsHeld (s.readOctets i k) :=
  have hoctet (m : Nat) : ReadsHeld (s.readOctet i k m) := readsHeld_ite (readSrc_readsHeld s _) (readsHeld_ok _)
  (readSrc_readsHeld s _).bind fun _ _ => (hoctet 1).bind fun _ _ => (hoctet 2).bind fun _ _ => readsHeld_ok _

theorem readSextet_readsHeld (c : Byte) : ReadsHeld (readSextet c) := by
  unfold readSextet
  cases sextetOf c with
  | some x => exact readsHeld_ok x
  | none => exact fun _ h => by cases h

theorem readSymbols_readsHeld (s : State) (i : Nat) : ReadsHeld (s.readSymbols i) :=
  (readSrc_readsHeld s _).bind fun c0 _ => (readSrc_readsHeld s _).bind fun c1 _ =>
  (readSrc_readsHeld s _).bind fun c2 _ => (readSrc_readsHeld s _).bind fun c3 _ =>
  (readSextet_readsHeld c0).bind fun _ _ => (readSextet_readsHeld c1).bind fun _ _ =>
  (readSextet_readsHeld c2).bind fun _ _ => (readSextet_readsHeld c3).bind fun _ _ => readsHeld_ok _

theorem writeDst_readsHeld (s : State) (k : Nat) (b : Byte) : ReadsHeld (s.writeDst k b) := by
  intro r h
  rcases writeDst_error h with ⟨-, h⟩ | ⟨d, -, -, h⟩ <;> cases h

theorem writeDstBytes_readsHeld (s : State) (k : Nat) (bs : List Byte) : ReadsHeld (s.writeDstBytes k bs) := by
  induction bs generalizing s k with
  | nil => exact readsHeld_ok s
  | cons b bs ih => exact (writeDst_readsHeld s k b).bind fun a _ => ih a (k + 1)

theorem emit_readsHeld (hp : s.phase = .run) (b : Byte) : ReadsHeld (s.emit b) :=
  (readReg_readsHeld (by simp [Reg.holdsValue, hp])).bind fun _ _ =>
  (readReg_readsHeld (by simp [Reg.holdsValue, hp])).bind fun _ _ =>
  readsHeld_ite ((writeDst_readsHeld s _ _).bind fun _ _ => readsHeld_ok _) (readsHeld_ok s)

theorem publish_readsHeld (hp : s.phase = .finish) : ReadsHeld s.publish := by
  refine (readReg_readsHeld (by simp [Reg.holdsValue, hp])).bind fun n _ => ?_
  cases s.dst with
  | none => exact fun _ h => by cases h
  | some d => exact readsHeld_ok _

/-! ### The steps: each reads registers of its own phase only -/

theorem toOutcome_ne_of_readsHeld {x : StepResult} (h : ReadsHeld x) (r : Reg) :
    x.toOutcome ≠ .fault (.registerHoldsNoValue r) :=
  fun hf => h r (toOutcome_fault.mp hf)

theorem decodeGroup_readsHeld (hp : s.phase = .run) : ReadsHeld (decodeGroup s) := by
  refine (readReg_readsHeld (by simp [Reg.holdsValue, hp])).bind fun n _ =>
    (readReg_readsHeld (by simp [Reg.holdsValue, hp])).bind fun i _ => (readSymbols_readsHeld s i).bind fun g _ =>
    (emit_readsHeld (s := s.setAcc g) hp _).bind fun a ha => ?_
  have hpa : a.phase = .run := by rw [(emit_keeps (s := s.setAcc g) hp ha).1]; exact hp
  refine (emit_readsHeld hpa _).bind fun b hb => ?_
  have hpb : b.phase = .run := by rw [(emit_keeps hpa hb).1]; exact hpa
  exact (emit_readsHeld hpb _).bind fun _ _ => readsHeld_ok _

theorem encodeFinish_readsHeld (hp : s.phase = .finish) : ReadsHeld (encodeFinish s) := by
  refine (readReg_readsHeld (by simp [Reg.holdsValue, hp])).bind fun j _ =>
    (writeDst_readsHeld s j _).bind fun a ha => ?_
  obtain ⟨d, -, -, rfl⟩ := writeDst_ok.mp ha
  exact publish_readsHeld hp

theorem execEncode_ne_noValue (present : Bool) (s : State) (r : Reg) :
    execEncode present s ≠ .fault (.registerHoldsNoValue r) := by
  unfold execEncode
  cases hp : s.phase with
  | check =>
    exact toOutcome_ne_of_readsHeld ((readReg_readsHeld (by simp [Reg.holdsValue, hp])).bind fun _ _ =>
      readsHeld_ite (readsHeld_ok _) (readsHeld_ite (readsHeld_ok _) (readsHeld_ok _))) r
  | length =>
    exact toOutcome_ne_of_readsHeld ((readReg_readsHeld (by simp [Reg.holdsValue, hp])).bind fun _ _ =>
      readsHeld_ite (readsHeld_ok _) (readsHeld_ok _)) r
  | alloc =>
    exact toOutcome_ne_of_readsHeld
      ((readReg_readsHeld (by simp [Reg.holdsValue, hp])).bind fun _ _ => readsHeld_ok _) r
  | run =>
    exact toOutcome_ne_of_readsHeld ((readReg_readsHeld (by simp [Reg.holdsValue, hp])).bind fun _ _ =>
      (readReg_readsHeld (by simp [Reg.holdsValue, hp])).bind fun _ _ =>
      (readReg_readsHeld (by simp [Reg.holdsValue, hp])).bind fun _ _ =>
      (readOctets_readsHeld s _ _).bind fun _ _ => (writeDstBytes_readsHeld _ _ _).bind fun _ _ => readsHeld_ok _) r
  | finish => exact toOutcome_ne_of_readsHeld (encodeFinish_readsHeld hp) r
  | idle | validate | done => simp

theorem execDecode_ne_noValue (present : Bool) (s : State) (r : Reg) :
    execDecode present s ≠ .fault (.registerHoldsNoValue r) := by
  unfold execDecode
  cases hp : s.phase with
  | check =>
    exact toOutcome_ne_of_readsHeld ((readReg_readsHeld (by simp [Reg.holdsValue, hp])).bind fun _ _ =>
      readsHeld_ite (readsHeld_ok _) (readsHeld_ite (readsHeld_ok _) (readsHeld_ok _))) r
  | validate =>
    exact toOutcome_ne_of_readsHeld ((readReg_readsHeld (by simp [Reg.holdsValue, hp])).bind fun _ _ =>
      (readReg_readsHeld (by simp [Reg.holdsValue, hp])).bind fun _ _ =>
      (readSrc_readsHeld s _).bind fun _ _ => readsHeld_ite (readsHeld_ok _) (readsHeld_ok _)) r
  | length =>
    exact toOutcome_ne_of_readsHeld ((readReg_readsHeld (by simp [Reg.holdsValue, hp])).bind fun _ _ =>
      readsHeld_ite (readsHeld_ok _) ((readSrc_readsHeld s _).bind fun _ _ => (readSrc_readsHeld s _).bind fun _ _ =>
        readsHeld_ok _)) r
  | alloc =>
    exact toOutcome_ne_of_readsHeld
      ((readReg_readsHeld (by simp [Reg.holdsValue, hp])).bind fun _ _ => readsHeld_ok _) r
  | run => exact toOutcome_ne_of_readsHeld (decodeGroup_readsHeld hp) r
  | finish => exact toOutcome_ne_of_readsHeld (publish_readsHeld hp) r
  | idle | done => simp

theorem exec_ne_noValue (i : Instr) (s : State) (r : Reg) : exec i s ≠ .fault (.registerHoldsNoValue r) := by
  cases i with
  | encode present => exact execEncode_ne_noValue present s r
  | decode present => exact execDecode_ne_noValue present s r

theorem coreTurn_ne_noValue (s : State) (r : Reg) : coreTurn s ≠ .fault (.registerHoldsNoValue r) := by
  unfold coreTurn
  cases s.operation with
  | none => simp
  | some i => exact exec_ne_noValue i s r

theorem hostStart_ne_fault (c : Command) (s : State) (f : Fault) : hostStart c s ≠ .fault f := by
  unfold hostStart
  split_ifs <;> simp

theorem hostRelease_ne_fault (name : Nat) (s : State) (f : Fault) : hostRelease name s ≠ .fault f := by
  unfold hostRelease
  split <;> simp

/-- Settles O54: the core's steps read registers in their own phases, and the other moves never fault. -/
theorem noStepReadsARegisterThatHoldsNoValue : Obligations.NoStepReadsARegisterThatHoldsNoValue := by
  refine ⟨exec_ne_noValue, fun s r => ?_⟩
  unfold step
  split
  · exact coreTurn_ne_noValue _ r
  · exact coreTurn_ne_noValue _ r
  · exact hostStart_ne_fault _ _ _
  · exact hostRelease_ne_fault _ _ _
  · simp

end Sys2Proof.Machine

/-! ## No step depends on a register that holds no value (O46)

Two states alike up to such registers answer alike outcomes: shown for each operation in turn, then for each move.
-/

namespace Sys2Proof.Machine

variable {s t : State} {present : Bool}

/-- Two states that differ at most in registers that hold no value. -/
structure State.Alike (s t : State) : Prop where
  lenw : t.lenw = s.lenw
  phase : t.phase = s.phase
  stored : ∀ r : Reg, r.holdsValue s.phase = true → t.stored r = s.stored r
  src : s.phase ≠ .idle → t.src = s.src
  res : t.res = s.res
  dst : t.dst = s.dst
  delivered : t.delivered = s.delivered
  nextName : t.nextName = s.nextName
  turns : t.turns = s.turns
  answers : t.answers = s.answers
  draws : t.draws = s.draws

namespace State.Alike

theorem cmd (h : s.Alike t) (hp : s.phase ≠ .idle) : t.cmd = s.cmd :=
  BitVec.eq_of_toNat_eq (h.stored .cmd (by simpa [Reg.holdsValue] using hp))

theorem source (h : s.Alike t) (hp : s.phase ≠ .idle) : t.source = s.source :=
  source_congr (h.src hp) (h.stored .srcLen (by simpa [Reg.holdsValue] using hp))

theorem readyFlag (h : s.Alike t) : t.readyFlag = s.readyFlag := congrArg Phase.ready h.phase

theorem readReg (h : s.Alike t) (r : Reg) : t.readReg r = s.readReg r := by
  unfold State.readReg
  rw [h.phase]
  split
  · rw [h.stored r ‹_›]
  · rfl

theorem readSrc (h : s.Alike t) (hp : s.phase ≠ .idle) (k : Nat) : t.readSrc k = s.readSrc k := by
  simp [State.readSrc, h.source hp]

end State.Alike

/-- A state is alike to what it shows. -/
theorem alike_visible (s : State) : s.Alike s.visible where
  lenw := rfl
  phase := rfl
  stored r h := by cases r <;> simp_all [State.stored, State.visible]
  src hp := by simp [State.visible, Reg.holdsValue, hp]
  res := rfl
  dst := rfl
  delivered := rfl
  nextName := rfl
  turns := rfl
  answers := rfl
  draws := rfl

/-- Alike states show the same. -/
theorem State.Alike.visible_eq (h : s.Alike t) : t.visible = s.visible := by
  have mask {α : Type} {r : Reg} {x y z : α} (hxy : r.holdsValue s.phase = true → x = y) :
      (if r.holdsValue s.phase then x else z) = if r.holdsValue s.phase then y else z :=
    ite_congr rfl hxy fun _ => rfl
  unfold State.visible
  rw [h.phase, h.lenw, h.res, h.dst, h.delivered, h.nextName, h.turns, h.answers, h.draws]
  rw [State.mk.injEq]
  exact ⟨rfl, rfl, mask fun hv => BitVec.eq_of_toNat_eq (h.stored .cmd hv), mask (h.stored .srcLen),
    mask fun hv => h.src (by simpa [Reg.holdsValue] using hv), mask (h.stored .i), mask (h.stored .j),
    mask (h.stored .v), mask (h.stored .outLen), mask fun hv => BitVec.eq_of_toNat_eq (h.stored .acc hv),
    rfl, rfl, rfl, rfl, rfl, rfl, rfl⟩

/-! ### Updates keep states alike -/

theorem stored_setV (s : State) (n : Nat) (r : Reg) : (s.setV n).stored r = if r = .v then n else s.stored r := by
  cases r <;> rfl

theorem stored_setI (s : State) (n : Nat) (r : Reg) : (s.setI n).stored r = if r = .i then n else s.stored r := by
  cases r <;> rfl

theorem stored_setJ (s : State) (n : Nat) (r : Reg) : (s.setJ n).stored r = if r = .j then n else s.stored r := by
  cases r <;> rfl

theorem stored_setOutLen (s : State) (n : Nat) (r : Reg) :
    (s.setOutLen n).stored r = if r = .outLen then n else s.stored r := by
  cases r <;> rfl

theorem stored_setAcc (s : State) (g : Group) (r : Reg) :
    (s.setAcc g).stored r = if r = .acc then g.toNat else s.stored r := by
  cases r <;> rfl

/-- CMD and SRC_LEN are the only registers that hold a value in CHECK, LENGTH and DONE, and they do past IDLE. -/
theorem holdsValue_of_bare {r : Reg} {p q : Phase} (hq : q = .check ∨ q = .length ∨ q = .done) (hp : p ≠ .idle)
    (h : r.holdsValue q = true) : r.holdsValue p = true := by
  rcases hq with rfl | rfl | rfl <;> cases r <;> simp_all [Reg.holdsValue]

namespace State.Alike

/-- PHASE moves on: every register that holds a value in the new phase holds the same in both. -/
theorem enter (h : s.Alike t) {p : Phase} (hp : s.phase ≠ .idle)
    (hheld : ∀ r : Reg, r.holdsValue p = true → r.holdsValue s.phase = true ∨ t.stored r = s.stored r) :
    (s.enter p).Alike (t.enter p) :=
  { h with
    phase := rfl
    stored := fun r hr => (hheld r hr).elim (h.stored r) id
    src := fun _ => h.src hp }

theorem setDst (h : s.Alike t) (d : Option NamedBuffer) : (s.setDst d).Alike (t.setDst d) := { h with dst := rfl }

theorem setRes (h : s.Alike t) (r : Option Results) : (s.setRes r).Alike (t.setRes r) := { h with res := rfl }

theorem setTurns (h : s.Alike t) (rest : List Turn) :
    State.Alike { s with turns := rest } { t with turns := rest } := { h with turns := rfl }

theorem setV (h : s.Alike t) (n : Nat) : (s.setV n).Alike (t.setV n) :=
  { h with stored := fun r hr => by rw [stored_setV, stored_setV, h.stored r hr] }

theorem setI (h : s.Alike t) (n : Nat) : (s.setI n).Alike (t.setI n) :=
  { h with stored := fun r hr => by rw [stored_setI, stored_setI, h.stored r hr] }

theorem setJ (h : s.Alike t) (n : Nat) : (s.setJ n).Alike (t.setJ n) :=
  { h with stored := fun r hr => by rw [stored_setJ, stored_setJ, h.stored r hr] }

theorem setOutLen (h : s.Alike t) (n : Nat) : (s.setOutLen n).Alike (t.setOutLen n) :=
  { h with stored := fun r hr => by rw [stored_setOutLen, stored_setOutLen, h.stored r hr] }

theorem setAcc (h : s.Alike t) (g : Group) : (s.setAcc g).Alike (t.setAcc g) :=
  { h with stored := fun r hr => by rw [stored_setAcc, stored_setAcc, h.stored r hr] }

theorem grant (h : s.Alike t) (n : Nat) : (s.grant n).Alike (t.grant n) :=
  { h with
    dst := by simp [h.nextName]
    nextName := by simp [h.nextName] }

/-- The allocator answers alike states the same. -/
theorem draw (h : s.Alike t) : t.draw.1 = s.draw.1 ∧ s.draw.2.Alike t.draw.2 := by
  unfold State.draw
  rw [h.answers]
  cases s.answers with
  | nil => exact ⟨by rw [h.draws], { h with answers := rfl, draws := congrArg (· + 1) h.draws }⟩
  | cons g rest => exact ⟨rfl, { h with answers := rfl }⟩

/-- Into a phase in which only CMD and SRC_LEN hold a value. -/
theorem enterBare (h : s.Alike t) {p : Phase} (hp : s.phase ≠ .idle) (hq : p = .check ∨ p = .length ∨ p = .done) :
    (s.enter p).Alike (t.enter p) :=
  h.enter hp fun _ hr => .inl (holdsValue_of_bare hq hp hr)

theorem raiseFail (h : s.Alike t) (hp : s.phase ≠ .idle) (cause : FailCause) :
    (raiseFail cause s).Alike (raiseFail cause t) :=
  (h.setRes _).enterBare hp (by simp)

theorem requestBuffer (h : s.Alike t) (hp : s.phase = .alloc) (n : Nat) :
    (s.requestBuffer n).Alike (t.requestBuffer n) := by
  obtain ⟨hanswer, hd⟩ := h.draw
  have hphase : s.draw.2.phase = .alloc := by rw [draw_frame s]; exact hp
  unfold State.requestBuffer
  rw [hanswer]
  split
  · refine (((hd.grant n).setI 0).setJ 0).enter (by simp [hphase]) fun r hr => ?_
    cases r <;> simp_all [Reg.holdsValue, State.stored]
  · exact hd.raiseFail (by simp [hphase]) _

end State.Alike

/-! ### Results -/

/-- Two results that end in alike states or in one fault. -/
def AlikeResult : StepResult → StepResult → Prop
  | .ok a, .ok b => a.Alike b
  | .error f, .error g => f = g
  | .ok _, .error _ => False
  | .error _, .ok _ => False

namespace AlikeResult

theorem ok (h : s.Alike t) : AlikeResult (.ok s) (.ok t) := h

theorem error (f : Fault) : AlikeResult (.error f) (.error f) := rfl

theorem bind {x y : StepResult} {f g : State → StepResult} (h : AlikeResult x y)
    (hfg : ∀ a b, x = .ok a → a.Alike b → AlikeResult (f a) (g b)) : AlikeResult (x >>= f) (y >>= g) := by
  cases x with
  | ok a =>
    cases y with
    | ok b => exact hfg a b rfl h
    | error e => exact absurd h id
  | error e =>
    cases y with
    | ok b => exact absurd h id
    | error e' => exact h

/-- Both begin with the same read. -/
theorem bind_read {α : Type} (x : Except Fault α) {f g : α → StepResult} (hfg : ∀ a, AlikeResult (f a) (g a)) :
    AlikeResult (x >>= f) (x >>= g) := by
  cases x with
  | ok a => exact hfg a
  | error e => exact error e

theorem ite {c : Prop} [Decidable c] {x y x' y' : StepResult} (h : AlikeResult x y) (h' : AlikeResult x' y') :
    AlikeResult (if c then x else x') (if c then y else y') := by
  split
  · exact h
  · exact h'

/-- Alike results show the same outcome. -/
theorem visibleOutcome_eq {x y : StepResult} (h : AlikeResult x y) :
    visibleOutcome y.toOutcome = visibleOutcome x.toOutcome := by
  cases x with
  | ok a =>
    cases y with
    | ok b => exact congrArg Host.Outcome.next h.visible_eq
    | error e => exact absurd h id
  | error e =>
    cases y with
    | ok b => exact absurd h id
    | error e' => exact congrArg Host.Outcome.fault h.symm

end AlikeResult

/-! ### The shared operations -/

namespace State.Alike

theorem readOctets (h : s.Alike t) (hp : s.phase ≠ .idle) (i k : Nat) : t.readOctets i k = s.readOctets i k := by
  simp [State.readOctets, State.readOctet, h.readSrc hp]

theorem readSymbols (h : s.Alike t) (hp : s.phase ≠ .idle) (i : Nat) : t.readSymbols i = s.readSymbols i := by
  simp [State.readSymbols, h.readSrc hp]

theorem writeDst (h : s.Alike t) (k : Nat) (b : Byte) : AlikeResult (s.writeDst k b) (t.writeDst k b) := by
  unfold State.writeDst
  rw [h.dst]
  cases s.dst with
  | none => exact .error _
  | some d => exact .ite (.ok (h.setDst _)) (.error _)

theorem writeDstBytes (h : s.Alike t) (k : Nat) (bs : List Byte) :
    AlikeResult (s.writeDstBytes k bs) (t.writeDstBytes k bs) := by
  induction bs generalizing s t k with
  | nil => exact .ok h
  | cons b bs ih => exact (h.writeDst k b).bind fun _ _ _ hab => ih hab (k + 1)

theorem emit (h : s.Alike t) (b : Byte) : AlikeResult (s.emit b) (t.emit b) := by
  unfold State.emit
  rw [h.readReg .j, h.readReg .outLen]
  exact .bind_read _ fun j => .bind_read _ fun n =>
    .ite ((h.writeDst j b).bind fun _ _ _ hab => .ok (hab.setJ _)) (.ok h)

theorem publish (h : s.Alike t) (hp : s.phase ≠ .idle) : AlikeResult s.publish t.publish := by
  unfold State.publish
  rw [h.readReg .outLen, h.dst]
  refine .bind_read _ fun n => ?_
  cases s.dst with
  | none => exact .error _
  | some d =>
    have hdel : State.Alike { s with delivered := d :: s.delivered } { t with delivered := d :: t.delivered } :=
      { h with delivered := by rw [h.delivered] }
    exact .ok (((hdel.setDst none).setRes _).enterBare hp (by simp))

/-! ### The steps -/

/-- From one group to the next or to FINISH: the same registers hold a value. -/
theorem enterLoop (h : s.Alike t) (hp : s.phase = .run) {c : Prop} [Decidable c] :
    (s.enter (if c then .finish else .run)).Alike (t.enter (if c then .finish else .run)) := by
  refine h.enter (by simp [hp]) fun r hr => .inl ?_
  rw [hp]
  split at hr
  · cases r <;> simp_all [Reg.holdsValue]
  · exact hr

theorem encodeCheck (h : s.Alike t) (hp : s.phase = .check) :
    AlikeResult (encodeCheck present s) (encodeCheck present t) := by
  have hidle : s.phase ≠ .idle := by simp [hp]
  unfold Machine.encodeCheck
  rw [h.readReg .srcLen]
  exact .bind_read _ fun n => .ite (.ok (h.raiseFail hidle _))
    (.ite (.ok (h.raiseFail hidle _)) (.ok (h.enterBare hidle (by simp))))

theorem enterAlloc (h : s.Alike t) (hp : s.phase = .length) (n : Nat) :
    ((s.setOutLen n).enter .alloc).Alike ((t.setOutLen n).enter .alloc) := by
  refine (h.setOutLen n).enter (by simp [hp]) fun r hr => ?_
  cases r <;> simp_all [Reg.holdsValue]

theorem encodeLength (h : s.Alike t) (hp : s.phase = .length) : AlikeResult (encodeLength s) (encodeLength t) := by
  unfold Machine.encodeLength State.maxLen
  rw [h.readReg .srcLen, h.lenw]
  exact .bind_read _ fun n => .ite (.ok (h.raiseFail (by simp [hp]) _)) (.ok (h.enterAlloc hp _))

theorem encodeAlloc (h : s.Alike t) (hp : s.phase = .alloc) : AlikeResult (encodeAlloc s) (encodeAlloc t) := by
  unfold Machine.encodeAlloc
  rw [h.readReg .outLen]
  exact .bind_read _ fun n => .ok (h.requestBuffer hp _)

theorem encodeGroup (h : s.Alike t) (hp : s.phase = .run) : AlikeResult (encodeGroup s) (encodeGroup t) := by
  unfold Machine.encodeGroup
  rw [h.readReg .srcLen, h.readReg .i, h.readReg .j]
  refine .bind_read _ fun n => .bind_read _ fun i => .bind_read _ fun j => ?_
  dsimp only
  rw [h.readOctets (by simp [hp])]
  refine .bind_read _ fun g => ((h.setAcc g).writeDstBytes j _).bind fun a b ha hab => ?_
  obtain ⟨d, -, -, rfl⟩ := (writeDstBytes_ok (symbolsOf_ne_nil _ _)).mp ha
  exact .ok (((hab.setI _).setJ _).enterLoop hp)

theorem encodeFinish (h : s.Alike t) (hp : s.phase = .finish) : AlikeResult (encodeFinish s) (encodeFinish t) := by
  unfold Machine.encodeFinish
  rw [h.readReg .j]
  refine .bind_read _ fun j => (h.writeDst j _).bind fun a b ha hab => ?_
  obtain ⟨d, -, -, rfl⟩ := writeDst_ok.mp ha
  exact hab.publish (by simp [hp])

theorem decodeCheck (h : s.Alike t) (hp : s.phase = .check) :
    AlikeResult (decodeCheck present s) (decodeCheck present t) := by
  have hidle : s.phase ≠ .idle := by simp [hp]
  unfold Machine.decodeCheck
  rw [h.readReg .srcLen]
  refine .bind_read _ fun n => .ite (.ok (h.raiseFail hidle _)) (.ite (.ok (h.raiseFail hidle _)) (.ok ?_))
  refine (h.setV 0).enter hidle fun r hr => ?_
  cases r <;> simp_all [Reg.holdsValue]

theorem decodeValidate (h : s.Alike t) (hp : s.phase = .validate) :
    AlikeResult (decodeValidate s) (decodeValidate t) := by
  have hidle : s.phase ≠ .idle := by simp [hp]
  unfold Machine.decodeValidate
  rw [h.readReg .srcLen, h.readReg .v]
  refine .bind_read _ fun n => .bind_read _ fun v => ?_
  rw [h.readSrc hidle]
  refine .bind_read _ fun c => .ite (.ok (h.raiseFail hidle _)) (.ok ?_)
  split
  · exact (h.setV _).enterBare hidle (by simp)
  · exact (h.setV _).enter hidle fun r hr => .inl (by simpa [hp] using hr)

theorem decodeLength (h : s.Alike t) (hp : s.phase = .length) : AlikeResult (decodeLength s) (decodeLength t) := by
  have hidle : s.phase ≠ .idle := by simp [hp]
  unfold Machine.decodeLength
  rw [h.readReg .srcLen]
  refine .bind_read _ fun n => .ite (.ok (h.raiseFail hidle _)) ?_
  rw [h.readSrc hidle, h.readSrc hidle]
  exact .bind_read _ fun c1 => .bind_read _ fun c2 => .ok (h.enterAlloc hp _)

theorem decodeAlloc (h : s.Alike t) (hp : s.phase = .alloc) : AlikeResult (decodeAlloc s) (decodeAlloc t) := by
  unfold Machine.decodeAlloc
  rw [h.readReg .outLen]
  exact .bind_read _ fun n => .ok (h.requestBuffer hp _)

theorem decodeGroup (h : s.Alike t) (hp : s.phase = .run) : AlikeResult (decodeGroup s) (decodeGroup t) := by
  unfold Machine.decodeGroup
  rw [h.readReg .srcLen, h.readReg .i]
  refine .bind_read _ fun n => .bind_read _ fun i => ?_
  rw [h.readSymbols (by simp [hp])]
  refine .bind_read _ fun g => ((h.setAcc g).emit _).bind fun a a' ha haa => ?_
  have hpa : a.phase = .run := by rw [(emit_keeps (s := s.setAcc g) hp ha).1]; exact hp
  refine (haa.emit _).bind fun b b' hb hbb => ?_
  have hpb : b.phase = .run := by rw [(emit_keeps hpa hb).1]; exact hpa
  refine (hbb.emit _).bind fun c c' hc hcc => ?_
  have hpc : c.phase = .run := by rw [(emit_keeps hpb hc).1]; exact hpb
  exact .ok ((hcc.setI (i + 4)).enterLoop hpc)

theorem execEncode (h : s.Alike t) :
    visibleOutcome (execEncode present t) = visibleOutcome (execEncode present s) := by
  unfold Machine.execEncode
  rw [h.phase]
  cases hp : s.phase with
  | check => exact (h.encodeCheck hp).visibleOutcome_eq
  | length => exact (h.encodeLength hp).visibleOutcome_eq
  | alloc => exact (h.encodeAlloc hp).visibleOutcome_eq
  | run => exact (h.encodeGroup hp).visibleOutcome_eq
  | finish => exact (h.encodeFinish hp).visibleOutcome_eq
  | idle | validate | done => rfl

theorem execDecode (h : s.Alike t) :
    visibleOutcome (execDecode present t) = visibleOutcome (execDecode present s) := by
  unfold Machine.execDecode
  rw [h.phase]
  cases hp : s.phase with
  | check => exact (h.decodeCheck hp).visibleOutcome_eq
  | validate => exact (h.decodeValidate hp).visibleOutcome_eq
  | length => exact (h.decodeLength hp).visibleOutcome_eq
  | alloc => exact (h.decodeAlloc hp).visibleOutcome_eq
  | run => exact (h.decodeGroup hp).visibleOutcome_eq
  | finish => exact (h.publish (by simp [hp])).visibleOutcome_eq
  | idle | done => rfl

/-! ### The moves -/

theorem coreTurn (h : s.Alike t) : visibleOutcome (coreTurn t) = visibleOutcome (coreTurn s) := by
  cases hr : s.readyFlag with
  | true => simpa [Machine.coreTurn, State.operation, h.readyFlag, hr, visibleOutcome] using h.visible_eq
  | false =>
    have hidle : s.phase ≠ .idle := by
      intro hp
      simp [State.readyFlag, Phase.ready, hp] at hr
    rw [coreTurn_of_not_ready hr, coreTurn_of_not_ready (h.readyFlag.trans hr), h.cmd hidle]
    cases decodeCmd s.cmd with
    | encode present => exact h.execEncode
    | decode present => exact h.execDecode

theorem latch (h : s.Alike t) (c : Command) : (s.latch c).Alike (t.latch c) :=
  { h with
    phase := rfl
    stored := fun r hr => by cases r <;> simp_all [Reg.holdsValue, State.stored]
    src := fun _ => rfl
    res := rfl }

theorem hostStart (h : s.Alike t) (c : Command) : visibleOutcome (hostStart c t) = visibleOutcome (hostStart c s) := by
  unfold Machine.hostStart
  rw [h.readyFlag, h.lenw]
  split_ifs
  · exact congrArg Host.Outcome.next h.visible_eq
  · rfl
  · rfl
  · exact congrArg Host.Outcome.next (h.latch c).visible_eq

theorem hostRelease (h : s.Alike t) (name : Nat) :
    visibleOutcome (hostRelease name t) = visibleOutcome (hostRelease name s) := by
  have hdel (ds : List NamedBuffer) : State.Alike { s with delivered := ds } { t with delivered := ds } :=
    { h with delivered := rfl }
  unfold Machine.hostRelease
  rw [h.delivered]
  cases findBuffer name s.delivered with
  | none => rfl
  | some b => exact congrArg Host.Outcome.next (hdel _).visible_eq

theorem resetEvent (h : s.Alike t) : (resetEvent s).Alike (resetEvent t) :=
  { h with
    phase := rfl
    stored := fun _ _ => rfl
    src := fun _ => rfl
    res := rfl
    dst := rfl }

theorem step (h : s.Alike t) : visibleOutcome (step t) = visibleOutcome (step s) := by
  unfold Machine.step
  rw [h.turns]
  split
  · exact h.coreTurn
  · exact (h.setTurns _).coreTurn
  · exact (h.setTurns _).hostStart _
  · exact (h.setTurns _).hostRelease _
  · exact congrArg Host.Outcome.next (h.setTurns _).resetEvent.visible_eq

end State.Alike

/-- Settles O46: a state and what it shows are alike, and alike states answer alike outcomes. -/
theorem noStepUsesARegisterWithoutAValue : Obligations.NoStepUsesARegisterWithoutAValue :=
  fun s => (alike_visible s).step.symm

end Sys2Proof.Machine

/-! ## Every step keeps the canonical form of memory (O45) -/

namespace Sys2Proof.Machine

variable {s t : State} {present : Bool}

/-! ### The shared operations -/

theorem requestBuffer_memoryWf (n : Nat) (h : s.memoryWf) : (s.requestBuffer n).memoryWf := by
  have hdraw : s.draw.2.memoryWf := by
    rw [draw_frame s]
    exact memoryWf_congr (s := s) rfl rfl h
  rcases requestBuffer_eq s n with ⟨-, he⟩ | ⟨-, he⟩
  · rw [he]
    exact memoryWf_congr rfl rfl (grant_memoryWf n hdraw)
  · rw [he]
    exact memoryWf_congr rfl rfl hdraw

theorem emit_memoryWf {b : Byte} (hp : s.phase = .run) (h : s.memoryWf) (he : s.emit b = .ok t) : t.memoryWf := by
  rcases (emit_ok hp).mp he with ⟨-, d, hd, hk, rfl⟩ | ⟨-, rfl⟩
  · have hw := writeDst_memoryWf h (writeDst_of_lt (b := b) hd hk)
    exact memoryWf_congr rfl rfl hw
  · exact h

theorem emit_three_memoryWf {x y z : Byte} (hp : s.phase = .run) (h : s.memoryWf)
    (he : (do
      let a ← s.emit x
      let b ← a.emit y
      b.emit z) = .ok t) : t.memoryWf := by
  simp only [bind_ok] at he
  obtain ⟨a, ha, b, hb, hc⟩ := he
  have hpa : a.phase = .run := by rw [(emit_keeps hp ha).1]; exact hp
  have hpb : b.phase = .run := by rw [(emit_keeps hpa hb).1]; exact hpa
  exact emit_memoryWf hpb (emit_memoryWf hpa (emit_memoryWf hp h ha) hb) hc

/-- A buffer that changes hands or is given back: nothing is stored. -/
theorem memoryWf_of_subset (hsub : t.buffers ⊆ s.buffers) (h : s.memoryWf) : t.memoryWf :=
  fun d hd => h d (hsub hd)

/-- A delivered buffer is the one that was DST, so the buffers that exist stay the same. -/
theorem deliver_memoryWf {d : NamedBuffer} (hd : s.dst = some d) (hdst : t.dst = none)
    (hdel : t.delivered = d :: s.delivered) (h : s.memoryWf) : t.memoryWf :=
  memoryWf_of_subset (by simp [State.buffers, hd, hdst, hdel]) h

/-! ### The steps of the two operations -/

theorem execEncode_memoryWf (h : s.memoryWf) (hs : execEncode present s = .next t) : t.memoryWf := by
  rcases execEncode_next hs with ⟨hp, hs⟩ | ⟨hp, hs⟩ | ⟨hp, hs⟩ | ⟨hp, hs⟩ | ⟨hp, hs⟩
  · -- E-CHECK
    rcases encodeCheck_ok hp hs with ⟨-, rfl⟩ | ⟨-, -, rfl⟩ <;> exact memoryWf_congr rfl rfl h
  · -- E-LENGTH
    rcases encodeLength_ok hp hs with ⟨-, rfl⟩ | ⟨-, rfl⟩ <;> exact memoryWf_congr rfl rfl h
  · -- E-ALLOC
    obtain rfl := encodeAlloc_ok hp hs
    exact requestBuffer_memoryWf _ h
  · -- E-GROUP
    obtain ⟨g, d, -, hd, hroom, rfl⟩ := encodeGroup_ok hp hs
    have hw := writeDstBytes_memoryWf h
      ((writeDstBytes_ok (symbolsOf_ne_nil (realBytes s.srcLen s.i) g)).mpr ⟨d, hd, hroom, rfl⟩)
    exact memoryWf_congr rfl rfl hw
  · -- E-FINISH
    obtain ⟨d, hd, hroom, rfl⟩ := encodeFinish_ok hp hs
    have hw := writeDst_memoryWf h (writeDst_of_lt (b := terminator) hd hroom)
    exact deliver_memoryWf (State.setDst_dst s _) rfl rfl hw

theorem execDecode_memoryWf (h : s.memoryWf) (hs : execDecode present s = .next t) : t.memoryWf := by
  rcases execDecode_next hs with ⟨hp, hs⟩ | ⟨hp, hs⟩ | ⟨hp, hs⟩ | ⟨hp, hs⟩ | ⟨hp, hs⟩ | ⟨hp, hs⟩
  · -- D-CHECK
    rcases decodeCheck_ok hp hs with ⟨-, rfl⟩ | ⟨-, -, rfl⟩ <;> exact memoryWf_congr rfl rfl h
  · -- D-VALIDATE
    obtain ⟨c, -, ⟨-, rfl⟩ | ⟨-, rfl⟩⟩ := decodeValidate_ok hp hs <;> exact memoryWf_congr rfl rfl h
  · -- D-LENGTH
    obtain ⟨-, rfl⟩ | ⟨-, c1, c2, -, -, rfl⟩ := decodeLength_ok hp hs <;> exact memoryWf_congr rfl rfl h
  · -- D-ALLOC
    obtain rfl := decodeAlloc_ok hp hs
    exact requestBuffer_memoryWf _ h
  · -- D-GROUP
    obtain ⟨g, c, -, hc, rfl⟩ := decodeGroup_ok hp hs
    have hw := emit_three_memoryWf (s := s.setAcc g) hp h hc
    exact memoryWf_congr rfl rfl hw
  · -- D-FINISH
    obtain ⟨d, hd, rfl⟩ := (publish_ok hp).mp hs
    exact deliver_memoryWf hd rfl rfl h

/-! ### The moves -/

theorem coreTurn_memoryWf (h : s.memoryWf) (hs : coreTurn s = .next t) : t.memoryWf := by
  rcases coreTurn_next hs with ⟨-, rfl⟩ | ⟨-, hs⟩
  · exact h
  · rw [exec_operation] at hs
    split at hs
    · exact execDecode_memoryWf h hs
    · exact execEncode_memoryWf h hs

theorem hostStart_memoryWf {c : Command} (h : s.memoryWf) (hs : hostStart c s = .next t) : t.memoryWf := by
  rcases hostStart_next hs with ⟨-, rfl⟩ | ⟨-, -, rfl⟩
  · exact h
  · exact memoryWf_congr rfl rfl h

theorem hostRelease_memoryWf {name : Nat} (h : s.memoryWf) (hs : hostRelease name s = .next t) : t.memoryWf := by
  obtain ⟨-, rfl⟩ := hostRelease_next hs
  exact memoryWf_of_subset (s := s) (List.filter_sublist.append_left s.dst.toList).subset h

theorem resetEvent_memoryWf (h : s.memoryWf) : (resetEvent s).memoryWf :=
  memoryWf_of_subset (s := s) (List.subset_append_right s.dst.toList s.delivered) h

theorem step_memoryWf (h : s.memoryWf) (hs : step s = .next t) : t.memoryWf := by
  have hturns (rest : List Turn) : State.memoryWf { s with turns := rest } := h
  rcases step_next hs with ⟨-, hs⟩ | ⟨rest, -, hs⟩ | ⟨c, rest, -, hs⟩ | ⟨name, rest, -, hs⟩ | ⟨rest, -, rfl⟩
  · exact coreTurn_memoryWf h hs
  · exact coreTurn_memoryWf (hturns rest) hs
  · exact hostStart_memoryWf (hturns rest) hs
  · exact hostRelease_memoryWf (hturns rest) hs
  · exact resetEvent_memoryWf (hturns rest)

/-- Settles O45: a write below the size keeps a buffer canonical, a grant is empty, and every other change of the
buffers moves or drops one. -/
theorem everyStepKeepsMemoryCanonical : Obligations.EveryStepKeepsMemoryCanonical :=
  fun _ _ => step_memoryWf

end Sys2Proof.Machine

/-! ## No step faults under the invariant (O43)

What each step of an operation answers when its reads and writes are in range; then that the invariant puts them there.
-/

namespace Sys2Proof.Machine

variable {s : State} {present : Bool}

/-! ### The reads of a group -/

/-- The octets of the group at an index inside the source; past its end stands zero (R67). -/
theorem readOctets_of_lt {i : Nat} (hi : i < s.source.length) :
    s.readOctets i (realBytes s.source.length i) =
      .ok (groupOfOctets (s.source.getD i 0) (s.source.getD (i + 1) 0) (s.source.getD (i + 2) 0)) := by
  have hoctet (m : Nat) (hm : m < 3) :
      s.readOctet i (realBytes s.source.length i) m = .ok (s.source.getD (i + m) 0) := by
    rw [readOctet_ok]
    split
    · rename_i hreal
      unfold realBytes at hreal
      have : i + m < s.source.length := by omega
      simp [this]
    · rename_i hpast
      unfold realBytes at hpast
      have : s.source.length ≤ i + m := by omega
      simp [this]
  rw [State.readOctets, readSrc_of_lt hi, hoctet 1 (by decide), hoctet 2 (by decide)]
  rfl

theorem allowed_getD {text : List Byte} {k : Nat} (ha : text.all allowed = true) (hk : k < text.length) :
    allowed (text.getD k 0) = true := by
  rw [List.getD_eq_getElem _ _ hk]
  exact List.all_eq_true.mp ha _ (List.getElem_mem hk)

/-- The symbols of a whole group of allowed characters (R68). -/
theorem readSymbols_of_allowed {i : Nat} (hi : i + 4 ≤ s.source.length) (ha : s.source.all allowed = true) :
    s.readSymbols i = .ok (groupOfSextets (sextetAt s.source i) (sextetAt s.source (i + 1))
      (sextetAt s.source (i + 2)) (sextetAt s.source (i + 3))) := by
  have hsrc (k : Nat) (hk : k < s.source.length) :
      s.readSrc k = .ok (s.source.getD k 0) ∧ readSextet (s.source.getD k 0) = .ok (sextetAt s.source k) :=
    ⟨readSrc_of_lt hk, readSextet_of_allowed (allowed_getD ha hk)⟩
  obtain ⟨r0, x0⟩ := hsrc i (by omega)
  obtain ⟨r1, x1⟩ := hsrc (i + 1) (by omega)
  obtain ⟨r2, x2⟩ := hsrc (i + 2) (by omega)
  obtain ⟨r3, x3⟩ := hsrc (i + 3) (by omega)
  simp only [State.readSymbols, r0, r1, r2, r3, x0, x1, x2, x3, ok_bind]

/-! ### The steps of ENCODE -/

theorem encodeCheck_eq (hp : s.phase = .check) : encodeCheck present s =
    .ok (if present = false ∨ s.srcLen = 0 then raiseFail .null s else s.enter .length) := by
  have hn := readReg_of_holds (s := s) (r := .srcLen) (by simp [Reg.holdsValue, hp])
  simp only [encodeCheck, hn, ok_bind, stored_srcLen]
  cases present <;> by_cases h0 : s.srcLen = 0 <;> simp [h0, raiseFail]

theorem encodeLength_eq (hp : s.phase = .length) : encodeLength s =
    .ok (if s.maxLen < encodedLength s.srcLen + 1 then raiseFail .ovf s
      else (s.setOutLen (encodedLength s.srcLen)).enter .alloc) := by
  have hn := readReg_of_holds (s := s) (r := .srcLen) (by simp [Reg.holdsValue, hp])
  simp only [encodeLength, hn, ok_bind, stored_srcLen, apply_ite Except.ok]

theorem encodeAlloc_eq (hp : s.phase = .alloc) : encodeAlloc s = .ok (s.requestBuffer (s.outLen + 1)) := by
  simp [encodeAlloc, readReg_of_holds (s := s) (r := .outLen) (by simp [Reg.holdsValue, hp])]

/-- E-GROUP, when the group can be read and DST has room for four symbols. -/
theorem encodeGroup_of_room {g : Group} {d : NamedBuffer} (hp : s.phase = .run)
    (hg : s.readOctets s.i (realBytes s.srcLen s.i) = .ok g) (hd : s.dst = some d) (hroom : s.j + 4 ≤ d.buf.size) :
    encodeGroup s = .ok
      { s with
        acc := g
        dst := some { d with buf := d.buf.writeAll s.j (symbolsOf (realBytes s.srcLen s.i) g) }
        i := s.i + realBytes s.srcLen s.i
        j := s.j + 4
        phase := if s.i + realBytes s.srcLen s.i = s.srcLen then .finish else .run } := by
  have hn := readReg_of_holds (s := s) (r := .srcLen) (by simp [Reg.holdsValue, hp])
  have hi := readReg_of_holds (s := s) (r := .i) (by simp [Reg.holdsValue, hp])
  have hj := readReg_of_holds (s := s) (r := .j) (by simp [Reg.holdsValue, hp])
  have hw := (writeDstBytes_ok (s := s.setAcc g) (symbolsOf_ne_nil (realBytes s.srcLen s.i) g)).mpr ⟨d, hd, hroom, rfl⟩
  simp only [encodeGroup, hn, hi, hj, ok_bind, stored_srcLen, stored_i, stored_j, hg, hw]
  rfl

/-- E-FINISH, when DST has room for the terminator. -/
theorem encodeFinish_of_room {d : NamedBuffer} (hp : s.phase = .finish) (hd : s.dst = some d)
    (hroom : s.j < d.buf.size) :
    encodeFinish s = .ok
      { s with
        delivered := { d with buf := d.buf.write s.j terminator } :: s.delivered
        dst := none
        res := some { null := false, len := s.outLen, buf := some d.name }
        phase := .done } := by
  have hj := readReg_of_holds (s := s) (r := .j) (by simp [Reg.holdsValue, hp])
  simp only [encodeFinish, hj, ok_bind, stored_j, writeDst_of_lt hd hroom]
  exact (publish_ok (s := s.setDst (some { d with buf := d.buf.write s.j terminator })) hp).mpr ⟨_, rfl, rfl⟩

/-! ### The steps of DECODE -/

theorem decodeCheck_eq (hp : s.phase = .check) : decodeCheck present s =
    .ok (if present = false ∨ s.srcLen = 0 then raiseFail .null s else (s.setV 0).enter .validate) := by
  have hn := readReg_of_holds (s := s) (r := .srcLen) (by simp [Reg.holdsValue, hp])
  simp only [decodeCheck, hn, ok_bind, stored_srcLen]
  cases present <;> by_cases h0 : s.srcLen = 0 <;> simp [h0, raiseFail]

theorem decodeValidate_of_lt (hp : s.phase = .validate) (hv : s.v < s.source.length) : decodeValidate s =
    .ok (if allowed (s.source.getD s.v 0) = true then
        (s.setV (s.v + 1)).enter (if s.v + 1 = s.srcLen then .length else .validate)
      else raiseFail .char s) := by
  have hn := readReg_of_holds (s := s) (r := .srcLen) (by simp [Reg.holdsValue, hp])
  have hr := readReg_of_holds (s := s) (r := .v) (by simp [Reg.holdsValue, hp])
  simp only [decodeValidate, hn, hr, ok_bind, stored_srcLen, stored_v, readSrc_of_lt hv]
  cases allowed (s.source.getD s.v 0) <;> rfl

/-- D-LENGTH, when the last character can be read; a length that is a multiple of 4 then has one before it. -/
theorem decodeLength_of_pos (hp : s.phase = .length) (hpos : 1 ≤ s.srcLen) (hlen : s.source.length = s.srcLen) :
    decodeLength s =
      .ok (if s.srcLen % 4 ≠ 0 then raiseFail .len4 s
        else (s.setOutLen (s.srcLen / 4 * 3 - padFlag (s.source.getD (s.srcLen - 1) 0) -
          padFlag (s.source.getD (s.srcLen - 2) 0))).enter .alloc) := by
  have hn := readReg_of_holds (s := s) (r := .srcLen) (by simp [Reg.holdsValue, hp])
  simp only [decodeLength, hn, ok_bind, stored_srcLen]
  rw [readSrc_of_lt (by omega), readSrc_of_lt (by omega), apply_ite Except.ok]
  rfl

theorem decodeAlloc_eq (hp : s.phase = .alloc) : decodeAlloc s = .ok (s.requestBuffer s.outLen) := by
  simp [decodeAlloc, readReg_of_holds (s := s) (r := .outLen) (by simp [Reg.holdsValue, hp])]

/-- D-GROUP, when the group can be read and DST has room for OUT_LEN bytes. -/
theorem decodeGroup_of_room {g : Group} {d : NamedBuffer} (hp : s.phase = .run) (hg : s.readSymbols s.i = .ok g)
    (hd : s.dst = some d) (hroom : s.outLen ≤ d.buf.size) :
    decodeGroup s = .ok
      { s with
        acc := g
        dst := some { d with
          buf := d.buf.writeAll s.j ([octet0 g, octet1 g, octet2 g].take (s.outLen - s.j)) }
        i := s.i + 4
        j := s.j + min 3 (s.outLen - s.j)
        phase := if s.i + 4 = s.srcLen then .finish else .run } := by
  have hn := readReg_of_holds (s := s) (r := .srcLen) (by simp [Reg.holdsValue, hp])
  have hi := readReg_of_holds (s := s) (r := .i) (by simp [Reg.holdsValue, hp])
  have hw := emit_three (s := s.setAcc g) (x := octet0 g) (y := octet1 g) (z := octet2 g) hp hd hroom
  simp only [bind_ok] at hw
  obtain ⟨a, ha, b, hb, hc⟩ := hw
  simp only [decodeGroup, hn, hi, ok_bind, stored_srcLen, stored_i, hg, ha, hb, hc]
  rfl

/-! ### What the invariant puts in range -/

namespace State.Inv

theorem dst_of_looping (h : s.Inv) (hp : s.phase.looping) : ∃ d, s.dst = some d ∧ d.buf.size = s.requestSize := by
  obtain ⟨d, hd⟩ := Option.isSome_iff_exists.mp (h.dst_exists.mpr hp)
  exact ⟨d, hd, (h.dst_filled d hd).1⟩

/-- One more group of ENCODE fits before the place of the terminator (R32 (d), R92). -/
theorem encode_room (h : s.Inv) (hp : s.phase = .run) (hop : s.cmdOp = false) :
    ∃ d, s.dst = some d ∧ s.j + 4 ≤ d.buf.size := by
  obtain ⟨d, hd, hsize⟩ := h.dst_of_looping (.inl hp)
  obtain ⟨hi, hmod⟩ := h.run_index hp
  rw [if_neg (by simp [hop])] at hmod
  have hfits : encodedLength (s.i + realBytes s.srcLen s.i) ≤ encodedLength s.srcLen :=
    encodedLength_mono (by unfold realBytes; omega)
  have hj := h.encode_indices (.inl hp) hop
  have hout := (h.encode_sized (.inr (.inl hp)) hop).1
  rw [encodedLength_add_realBytes hi hmod] at hfits
  refine ⟨d, hd, ?_⟩
  simp only [hsize, State.requestSize, hop, Bool.false_eq_true, if_false]
  omega

/-- I is at a whole group of the text (R113, R117). -/
theorem decode_group_le (h : s.Inv) (hp : s.phase = .run) (hop : s.cmdOp = true) : s.i + 4 ≤ s.srcLen := by
  have hlt := (h.run_index hp).1
  have hmod := h.decode_i_mod (.inl hp) hop
  have h4 := (h.decode_sized (.inr (.inl hp)) hop).1
  omega

theorem decode_room (h : s.Inv) (hp : s.phase = .run) (hop : s.cmdOp = true) :
    ∃ d, s.dst = some d ∧ s.outLen ≤ d.buf.size := by
  obtain ⟨d, hd, hsize⟩ := h.dst_of_looping (.inl hp)
  exact ⟨d, hd, by simp [hsize, State.requestSize, hop]⟩

/-! ### The core's turn always has a next state -/

theorem execEncode_answers (h : s.Inv) (hr : s.readyFlag = false) (hop : s.cmdOp = false) :
    ∃ t, execEncode present s = .next t := by
  unfold execEncode
  cases hp : s.phase with
  | check => exact ⟨_, toOutcome_next.mpr (encodeCheck_eq hp)⟩
  | length => exact ⟨_, toOutcome_next.mpr (encodeLength_eq hp)⟩
  | alloc => exact ⟨_, toOutcome_next.mpr (encodeAlloc_eq hp)⟩
  | run =>
    obtain ⟨d, hd, hroom⟩ := h.encode_room hp hop
    have hlen := h.source_length (by simp [Phase.pastCheck, hp])
    have hg := readOctets_of_lt (s := s) (i := s.i) (by rw [hlen]; exact (h.run_index hp).1)
    rw [hlen] at hg
    exact ⟨_, toOutcome_next.mpr (encodeGroup_of_room hp hg hd hroom)⟩
  | finish =>
    obtain ⟨d, hd, hsize⟩ := h.dst_of_looping (.inr hp)
    have hroom : s.j < d.buf.size := by simp [hsize, h.j_eq_outLen hp, State.requestSize, hop]
    exact ⟨_, toOutcome_next.mpr (encodeFinish_of_room hp hd hroom)⟩
  | validate => exact absurd (hop.symm.trans (h.validating hp).1) (by decide)
  | idle | done => simp [State.readyFlag, Phase.ready, hp] at hr

theorem execDecode_answers (h : s.Inv) (hr : s.readyFlag = false) (hop : s.cmdOp = true) :
    ∃ t, execDecode present s = .next t := by
  unfold execDecode
  cases hp : s.phase with
  | check => exact ⟨_, toOutcome_next.mpr (decodeCheck_eq hp)⟩
  | validate =>
    have hv : s.v < s.source.length := by
      rw [h.source_length (.inl hp)]
      exact (h.validating hp).2.1
    exact ⟨_, toOutcome_next.mpr (decodeValidate_of_lt hp hv)⟩
  | length =>
    have hpast : s.phase.pastCheck := by simp [Phase.pastCheck, hp]
    exact ⟨_, toOutcome_next.mpr (decodeLength_of_pos hp (h.srcLen_pos hpast) (h.source_length hpast))⟩
  | alloc => exact ⟨_, toOutcome_next.mpr (decodeAlloc_eq hp)⟩
  | run =>
    obtain ⟨d, hd, hroom⟩ := h.decode_room hp hop
    have hpast : s.phase.pastCheck := by simp [Phase.pastCheck, hp]
    have hg := readSymbols_of_allowed (s := s) (i := s.i)
      (by rw [h.source_length hpast]; exact h.decode_group_le hp hop) (h.validated hpast (by simp [hp]) hop)
    exact ⟨_, toOutcome_next.mpr (decodeGroup_of_room hp hg hd hroom)⟩
  | finish =>
    obtain ⟨d, hd, -⟩ := h.dst_of_looping (.inr hp)
    exact ⟨_, toOutcome_next.mpr ((publish_ok hp).mpr ⟨d, hd, rfl⟩)⟩
  | idle | done => simp [State.readyFlag, Phase.ready, hp] at hr

theorem coreTurn_answers (h : s.Inv) : ∃ t, coreTurn s = .next t := by
  cases hr : s.readyFlag with
  | true => exact ⟨s, by simp [coreTurn, State.operation, hr]⟩
  | false =>
    rw [coreTurn_of_not_ready hr, exec_operation]
    cases hop : s.cmdOp with
    | false => exact h.execEncode_answers hr hop
    | true => exact h.execDecode_answers hr hop

theorem coreTurn_ne_fault (h : s.Inv) (f : Fault) : coreTurn s ≠ .fault f := by
  obtain ⟨t, ht⟩ := h.coreTurn_answers
  simp [ht]

end State.Inv

/-- Settles O43: under the invariant the core's turn answers a next state, and no other move can fault. -/
theorem noStepFaultsUnderTheInvariant : Obligations.NoStepFaultsUnderTheInvariant := by
  refine fun s h => ⟨h.coreTurn_answers, fun f => ?_⟩
  unfold step
  split
  · exact h.coreTurn_ne_fault f
  · exact (h.withInputs _ s.answers s.draws).coreTurn_ne_fault f
  · exact hostStart_ne_fault _ _ _
  · exact hostRelease_ne_fault _ _ _
  · simp

end Sys2Proof.Machine

/-! ## The tables and the encodings (O1 to O8) -/

namespace Sys2Proof.Machine

/-! ### FWD and INV (R63, R64, R77) -/

/-- The code of the alphabet character of value `n`: A to Z, a to z, 0 to 9, + and / (R63). -/
def alphabetCode (n : Nat) : Nat :=
  if n < 26 then 0x41 + n
  else if n < 52 then 0x61 + (n - 26)
  else if n < 62 then 0x30 + (n - 52)
  else if n = 62 then 0x2B else 0x2F

theorem fwd_toNat (v : Sextet) : (fwd v).toNat = alphabetCode v.toNat := by
  revert v; decide

/-- Settles O1: FWD is read entry by entry. -/
theorem forwardTableIsTheAlphabet : Obligations.ForwardTableIsTheAlphabet := fwd_toNat

theorem inv_eq_none_of_le {x : Nat} (hx : 80 ≤ x) : inv x = none :=
  List.getElem?_eq_none hx

/-- The indices at which the sentinel stands (R64). -/
theorem inv_eq_sentinel_iff {x : Nat} (hx : x < 80) :
    inv x = some invSentinel ↔ x ∈ [1, 2, 3, 15, 16, 17, 18, 19, 20, 21, 48, 49, 50, 51, 52, 53] := by
  revert x; decide

theorem inv_fwd (v : Sextet) : inv ((fwd v).toNat - invOffset) = some (v.setWidth 8) := by
  revert v; decide

/-- An entry that is no sentinel is the value of the character with that code (R64). -/
theorem fwd_of_inv {x : Nat} {e : Byte} (h : inv x = some e) (he : e ≠ invSentinel) :
    e.toNat ≤ 63 ∧ (fwd (e.setWidth 6)).toNat = x + invOffset := by
  have hentry : ∀ k (hk : k < 80), invList[k]'hk ≠ invSentinel →
      (invList[k]'hk).toNat ≤ 63 ∧ (fwd ((invList[k]'hk).setWidth 6)).toNat = k + invOffset := by decide
  obtain ⟨hx, rfl⟩ := List.getElem?_eq_some_iff.mp h
  exact hentry x hx he

/-- Settles O2: at an index below 80 stands the sentinel, or the value that FWD turns back into the code. -/
theorem inverseTableIsTheAlphabetValues : Obligations.InverseTableIsTheAlphabetValues := by
  refine ⟨fun x => inv_eq_none_of_le, fun x hx => ?_⟩
  have hentry : inv x = some (invList[x]'hx) := List.getElem?_eq_getElem hx
  refine ⟨_, hentry, ?_⟩
  have hsent := inv_eq_sentinel_iff hx
  rw [hentry, Option.some.injEq] at hsent
  split
  · exact hsent.mpr ‹_›
  · obtain ⟨hle, hfwd⟩ := fwd_of_inv hentry (mt hsent.mp ‹_›)
    exact ⟨_, by rw [BitVec.toNat_setWidth]; omega, hfwd⟩

/-- Settles O3: the two tables undo each other; the entries that are no sentinel are counted and compared. -/
theorem tablesAreInverse : Obligations.TablesAreInverse :=
  ⟨inv_fwd, fun _ _ h he => (fwd_of_inv h he).2, by decide, by decide⟩

/-! ### ALLOWED and SEXTET (R68, R70) -/

theorem allowed_eq_true_iff (c : Byte) : allowed c = true ↔
    c = padChar ∨ invOffset ≤ c.toNat ∧ ∃ e, inv (c.toNat - invOffset) = some e ∧ e ≠ invSentinel := by
  unfold allowed
  cases inv (c.toNat - invOffset) <;> simp

/-- The allowed set is `=` and the alphabet (R70). -/
theorem allowed_iff_fwd (c : Byte) : allowed c = true ↔ c = padChar ∨ ∃ v, fwd v = c := by
  constructor
  · rw [allowed_eq_true_iff]
    rintro (hpad | ⟨hoff, e, hinv, he⟩)
    · exact .inl hpad
    · refine .inr ⟨e.setWidth 6, BitVec.eq_of_toNat_eq ?_⟩
      have := (fwd_of_inv hinv he).2
      omega
  · rintro (rfl | ⟨v, rfl⟩)
    · exact allowed_padChar
    · exact allowed_fwd v

/-- The codes of the alphabet, as ranges (R63, R70). -/
theorem exists_fwd_eq_iff (c : Byte) : (∃ v, fwd v = c) ↔
    c = 0x2B ∨ c = 0x2F ∨ (0x30 ≤ c.toNat ∧ c.toNat ≤ 0x39) ∨
      (0x41 ≤ c.toNat ∧ c.toNat ≤ 0x5A) ∨ (0x61 ≤ c.toNat ∧ c.toNat ≤ 0x7A) := by
  constructor
  · rintro ⟨v, rfl⟩
    have hlt := v.isLt
    rw [← BitVec.toNat_inj, ← BitVec.toNat_inj, fwd_toNat, alphabetCode]
    simp only [BitVec.reduceToNat]
    split_ifs <;> omega
  · have hcode (n : Nat) (hn : n < 64) (h : alphabetCode n = c.toNat) : ∃ v, fwd v = c := by
      refine ⟨BitVec.ofNat 6 n, BitVec.eq_of_toNat_eq ?_⟩
      rw [fwd_toNat, BitVec.toNat_ofNat, Nat.mod_eq_of_lt hn, h]
    rintro (rfl | rfl | h | h | h)
    · exact ⟨62, rfl⟩
    · exact ⟨63, rfl⟩
    · exact hcode (c.toNat - 0x30 + 52) (by omega) (by unfold alphabetCode; split_ifs <;> omega)
    · exact hcode (c.toNat - 0x41) (by omega) (by unfold alphabetCode; split_ifs <;> omega)
    · exact hcode (c.toNat - 0x61 + 26) (by omega) (by unfold alphabetCode; split_ifs <;> omega)

/-- 62 letters and digits, `+`, `/` and `=`. -/
theorem length_filter_allowed :
    ((List.range 256).filter fun n => allowed (BitVec.ofNat 8 n)).length = 65 := by decide

/-- Settles O4: the allowed set is `=` and the codes in FWD. -/
theorem allowedSetIsTheListedCodes : Obligations.AllowedSetIsTheListedCodes :=
  ⟨fun c => by rw [allowed_iff_fwd, exists_fwd_eq_iff]; rfl, length_filter_allowed⟩

/-- SEXTET of a character other than `=` is the entry of INV, as 6 bits (R68). -/
theorem sextetOf_of_inv {c e : Byte} (hpad : c ≠ padChar) (hoff : invOffset ≤ c.toNat)
    (h : inv (c.toNat - invOffset) = some e) (he : e ≠ invSentinel) : sextetOf c = some (e.setWidth 6) := by
  simp [sextetOf, hpad, hoff, h, he]

/-- Settles O5: SEXTET has a value exactly on the allowed set, and looks up INV there. -/
theorem sextetIsTheInverseTableOnTheAllowedSet : Obligations.SextetIsTheInverseTableOnTheAllowedSet := by
  refine ⟨sextetOf_padChar, fun c hc => ?_, fun c hc hpad => ?_⟩
  · rwa [allowed_eq_isSome, Option.isSome_eq_false_iff, Option.isNone_iff_eq_none] at hc
  · obtain hpad' | ⟨hoff, e, hinv, he⟩ := (allowed_eq_true_iff c).mp hc
    · exact absurd hpad' hpad
    · exact ⟨e, hinv, (fwd_of_inv hinv he).1, sextetOf_of_inv hpad hoff hinv he⟩

/-! ### The octets and the sextets of one group (R66) -/

/-- A slice of a slice, where the inner one begins at any bit. -/
theorem extractLsb'_extractLsb' {w m a n b : Nat} {g : BitVec w} (h : a + n ≤ m) :
    (g.extractLsb' b m).extractLsb' a n = g.extractLsb' (b + a) n := by
  ext k hk
  simp [show a + k < m by omega, Nat.add_assoc]

section
variable (g : Group)

theorem sextet0_eq_octets : sextet0 g = (octet0 g).extractLsb' 2 6 := by
  simp (disch := decide) only [octet0, extractLsb'_extractLsb', sextet0]

theorem sextet1_eq_octets : sextet1 g = (octet0 g).extractLsb' 0 2 ++ (octet1 g).extractLsb' 4 4 := by
  simp (disch := decide) only [octet0, octet1, extractLsb'_extractLsb']
  rw [BitVec.extractLsb'_append_extractLsb'_eq_extractLsb' (by decide), sextet1]

theorem sextet2_eq_octets : sextet2 g = (octet1 g).extractLsb' 0 4 ++ (octet2 g).extractLsb' 6 2 := by
  simp (disch := decide) only [octet1, octet2, extractLsb'_extractLsb']
  rw [BitVec.extractLsb'_append_extractLsb'_eq_extractLsb' (by decide), sextet2]

theorem sextet3_eq_octets : sextet3 g = (octet2 g).extractLsb' 0 6 := by
  simp (disch := decide) only [octet2, extractLsb'_extractLsb', sextet3]

theorem octet0_eq_sextets : octet0 g = sextet0 g ++ (sextet1 g).extractLsb' 4 2 := by
  simp (disch := decide) only [sextet0, sextet1, extractLsb'_extractLsb']
  rw [BitVec.extractLsb'_append_extractLsb'_eq_extractLsb' (by decide), octet0]

theorem octet1_eq_sextets : octet1 g = (sextet1 g).extractLsb' 0 4 ++ (sextet2 g).extractLsb' 2 4 := by
  simp (disch := decide) only [sextet1, sextet2, extractLsb'_extractLsb']
  rw [BitVec.extractLsb'_append_extractLsb'_eq_extractLsb' (by decide), octet1]

theorem octet2_eq_sextets : octet2 g = (sextet2 g).extractLsb' 0 2 ++ sextet3 g := by
  simp (disch := decide) only [sextet2, sextet3, extractLsb'_extractLsb']
  rw [BitVec.extractLsb'_append_extractLsb'_eq_extractLsb' (by decide), octet2]

end

/-- Settles O6: each view of a group is slices of the other, and a group gives back the parts it is built of. -/
theorem groupViewsAgree : Obligations.GroupViewsAgree := by
  constructor
  · rintro o0 o1 o2 _ rfl
    refine ⟨rfl, ?_⟩
    simp [sextet0_eq_octets, sextet1_eq_octets, sextet2_eq_octets, sextet3_eq_octets]
  · rintro s0 s1 s2 s3 _ rfl
    refine ⟨rfl, ?_⟩
    simp [octet0_eq_sextets, octet1_eq_sextets, octet2_eq_sextets]

/-! ### The command word (R71 to R73) -/

/-- No bit of a command word is dropped (R73). -/
theorem encodeCmd_decodeCmd (w : CmdWord) : encodeCmd (decodeCmd w) = w := by
  revert w; decide

theorem decodeCmd_encodeCmd (i : Instr) : decodeCmd (encodeCmd i) = i := by
  cases i with
  | encode present => exact (Laws.RoundTrip.encode present).2
  | decode present => exact (Laws.RoundTrip.decode present).2

/-- The byte that carries a command word is read off the front (log 15). -/
theorem decodeBytes_cons_cmd (w : CmdWord) (rest : List Byte) :
    decodeBytes (w.setWidth 8 :: rest) = .ok (decodeCmd w, rest) := by
  have hw := w.isLt
  have hlt : (w.setWidth 8).toNat < 4 := by rw [BitVec.toNat_setWidth]; omega
  rw [decodeBytes, if_pos hlt, BitVec.setWidth_setWidth_of_le _ (by decide), BitVec.setWidth_eq]

theorem decodeBytes_of_four_le {b : Byte} (hb : 4 ≤ b.toNat) (rest : List Byte) :
    decodeBytes (b :: rest) = .error (.notACommandWord b) :=
  if_neg (by omega)

/-- Settles O7: the four rows are read off the opcode map; a byte with a bit above bit 1 is 4 or more. -/
theorem commandWordsDecodeAsListed : Obligations.CommandWordsDecodeAsListed :=
  ⟨rfl, rfl, rfl, rfl, rfl, rfl, rfl, rfl, fun _ rest hb => decodeBytes_of_four_le hb rest, rfl⟩

/-- Settles O8: from the round trips of the word, the byte carries it unchanged. -/
theorem commandWordsRoundTrip : Obligations.CommandWordsRoundTrip := by
  refine ⟨decodeCmd_encodeCmd, encodeCmd_decodeCmd, fun i rest => ?_⟩
  calc decodeBytes (encodeBytes i ++ rest)
      = .ok (decodeCmd (encodeCmd i), rest) := decodeBytes_cons_cmd _ _
    _ = .ok (i, rest) := by rw [decodeCmd_encodeCmd]

end Sys2Proof.Machine

/-! ## ENCODE, step by step (O19 to O23, O25) -/

namespace Sys2Proof.Machine

variable {s t : State} {present : Bool}

/-! ### What `exec` of ENCODE answers in each phase -/

theorem exec_encode_check (hp : s.phase = .check) : exec (.encode present) s =
    .next (if present = false ∨ s.srcLen = 0 then raiseFail .null s else s.enter .length) := by
  simp [exec, execEncode, hp, encodeCheck_eq hp]

theorem exec_encode_length (hp : s.phase = .length) : exec (.encode present) s =
    .next (if s.maxLen < encodedLength s.srcLen + 1 then raiseFail .ovf s
      else (s.setOutLen (encodedLength s.srcLen)).enter .alloc) := by
  simp [exec, execEncode, hp, encodeLength_eq hp]

theorem exec_encode_alloc (hp : s.phase = .alloc) :
    exec (.encode present) s = .next (s.requestBuffer (s.outLen + 1)) := by
  simp [exec, execEncode, hp, encodeAlloc_eq hp]

/-- The octets of the group at `i`; past the end of the source stands zero (R67). -/
def groupAt (bytes : List Byte) (i : Nat) : Group :=
  groupOfOctets (bytes.getD i 0) (bytes.getD (i + 1) 0) (bytes.getD (i + 2) 0)

/-- E-GROUP, when the group lies in the source and DST has room for four symbols. -/
theorem exec_encode_run {d : NamedBuffer} (hp : s.phase = .run) (hi : s.i < s.srcLen)
    (hlen : s.source.length = s.srcLen) (hd : s.dst = some d) (hroom : s.j + 4 ≤ d.buf.size) :
    exec (.encode present) s = .next
      { s with
        acc := groupAt s.source s.i
        dst := some { d with
          buf := d.buf.writeAll s.j (symbolsOf (realBytes s.srcLen s.i) (groupAt s.source s.i)) }
        i := s.i + realBytes s.srcLen s.i
        j := s.j + 4
        phase := if s.i + realBytes s.srcLen s.i = s.srcLen then .finish else .run } := by
  have hg : s.readOctets s.i (realBytes s.srcLen s.i) = .ok (groupAt s.source s.i) :=
    hlen ▸ readOctets_of_lt (hlen.symm ▸ hi)
  simp only [exec, execEncode, hp, encodeGroup_of_room hp hg hd hroom, toOutcome_ok]

/-- E-FINISH, when DST has room for the terminator. -/
theorem exec_encode_finish {d : NamedBuffer} (hp : s.phase = .finish) (hd : s.dst = some d)
    (hroom : s.j < d.buf.size) : exec (.encode present) s = .next
      { s with
        delivered := { d with buf := d.buf.write s.j terminator } :: s.delivered
        dst := none
        res := some { null := false, len := s.outLen, buf := some d.name }
        phase := .done } := by
  simp only [exec, execEncode, hp, encodeFinish_of_room hp hd hroom, toOutcome_ok]

/-! ### CHECK, LENGTH and ALLOC -/

/-- Settles O19: `exec_encode_check`, with the failure entry written out. -/
theorem encodeCheckStep : Obligations.EncodeCheckStep :=
  fun _ _ hp => exec_encode_check hp

/-- The size test, read off SRC_LEN: the text of `n` bytes and its terminator pass a bound exactly when `n` passes three
bytes for each whole group of four below it (R92). -/
theorem lt_encodedLength_succ_iff {m n : Nat} (hm : 1 ≤ m) :
    m < encodedLength n + 1 ↔ 3 * ((m - 1) / 4) < n := by
  unfold encodedLength
  omega

/-- The length needs at most one bit more than its operand (R92, R97). -/
theorem encodedLength_lt_two_pow {lenw n : Nat} (hl : 3 ≤ lenw) (hn : n < 2 ^ lenw) :
    encodedLength n < 2 ^ (lenw + 1) := by
  have h8 : 2 ^ 3 ≤ 2 ^ lenw := Nat.pow_le_pow_right (by decide) hl
  unfold encodedLength
  omega

/-- Settles O20: the step, the width of the length, and the size test at any LENW and at the default. -/
theorem encodeLengthStep : Obligations.EncodeLengthStep := by
  refine ⟨fun _ _ hp => exec_encode_length hp, fun _ _ => encodedLength_lt_two_pow, fun lenw n hl => ?_, fun n => ?_⟩
  · have h8 : 2 ^ 3 ≤ 2 ^ lenw := Nat.pow_le_pow_right (by decide) hl
    exact lt_encodedLength_succ_iff (by omega)
  · exact lt_encodedLength_succ_iff (m := 2 ^ 32 - 1) (by decide)

/-- Settles O21: a draw leaves the next name alone, so the fresh buffer takes it. -/
theorem encodeAllocStep : Obligations.EncodeAllocStep := by
  intro present s hp
  have hname : s.draw.2.nextName = s.nextName := by rw [draw_frame s]
  rw [exec_encode_alloc hp, ← hname]
  rfl

/-! ### RUN -/

/-- The group at `i`, as the octets that are real and zero for the others, which lie past the end (R67, R94). -/
theorem groupAt_eq_real (bytes : List Byte) (i : Nat) : groupAt bytes i = groupOfOctets (bytes.getD i 0)
    (if 2 ≤ min 3 (bytes.length - i) then bytes.getD (i + 1) 0 else 0x00)
    (if 3 ≤ min 3 (bytes.length - i) then bytes.getD (i + 2) 0 else 0x00) := by
  have hoctet (m : Nat) (hm : m < 3) :
      bytes.getD (i + m) 0 = if m + 1 ≤ min 3 (bytes.length - i) then bytes.getD (i + m) 0 else 0x00 := by
    split
    · rfl
    · exact List.getD_eq_default _ _ (by omega)
  exact congrArg₂ (groupOfOctets _) (hoctet 1 (by decide)) (hoctet 2 (by decide))

/-- Settles O22: the invariant gives the premises of `exec_encode_run`, whose group and four symbols are written out. -/
theorem encodeGroupStep : Obligations.EncodeGroupStep := by
  refine ⟨fun s h hp hop => ⟨(h.run_index hp).1, h.source_length (by simp [Phase.pastCheck, hp]), h.encode_room hp hop⟩,
    fun present s d hp hi hlen hd hroom => ?_⟩
  rw [exec_encode_run hp hi hlen hd hroom, groupAt_eq_real, hlen]
  rfl

/-! ### FINISH -/

/-- The terminator has the last place of DST: one beyond the symbols (R92, R95). -/
theorem State.Inv.encode_last_index (h : s.Inv) (hp : s.phase = .finish) (hop : s.cmdOp = false) :
    ∃ d, s.dst = some d ∧ d.buf.size = s.j + 1 := by
  obtain ⟨d, hd, hsize⟩ := h.dst_of_looping (.inr hp)
  exact ⟨d, hd, by simp [hsize, h.j_eq_outLen hp, State.requestSize, hop]⟩

/-- Settles O23: the indices are those of the invariant; the step is `exec_encode_finish`. -/
theorem encodeFinishStep : Obligations.EncodeFinishStep :=
  ⟨fun _ h hp hop => ⟨h.finish_index hp, h.j_eq_outLen hp, h.encode_last_index hp hop⟩,
    fun _ _ _ hp hd hroom => ⟨_, exec_encode_finish hp hd hroom, rfl⟩⟩

/-- Settles O25: the number of groups is the least whose bytes cover the source. -/
theorem encodedLengthIsExact : Obligations.EncodedLengthIsExact :=
  ⟨fun n hn => ⟨(n + 2) / 3, rfl, by omega, by omega, by omega⟩, rfl, rfl, rfl, rfl⟩

end Sys2Proof.Machine

/-! ## What a step of ENCODE leaves unchanged (O24) -/

namespace Sys2Proof.Machine

variable {s t : State} {present : Bool}

/-! ### Bytes by name -/

theorem byteAt_congr (hd : t.dst = s.dst) (hv : t.delivered = s.delivered) (name k : Nat) :
    t.byteAt name k = s.byteAt name k := by
  simp [State.byteAt, State.buffers, hd, hv]

/-- A grant shows no byte: the fresh buffer has a name that no other has, and holds no value (R144). -/
theorem byteAt_grant {n : Nat} (hd : s.dst = none) (hused : ∀ d ∈ s.buffers, d.name < s.nextName) (name k : Nat) :
    (s.grant n).byteAt name k = s.byteAt name k := by
  have hbuf : (s.grant n).buffers = ⟨s.nextName, Buffer.fresh n⟩ :: s.buffers := by simp [State.buffers, hd]
  rw [State.byteAt, State.byteAt, hbuf, findBuffer]
  split
  · rename_i hname
    have hnone : findBuffer name s.buffers = none :=
      findBuffer_eq_none.mpr fun d hm => hname ▸ (hused d hm).ne
    simp [hnone]
  · rfl

/-- Where the first buffer alone was stored to, each byte reads as before that this buffer kept. -/
theorem byteAt_of_buffers {d : NamedBuffer} {b : Buffer} {ds : List NamedBuffer} {name k : Nat}
    (hs : s.buffers = d :: ds) (ht : t.buffers = { d with buf := b } :: ds)
    (hb : name = d.name → b.read k = d.buf.read k) : t.byteAt name k = s.byteAt name k := by
  rw [State.byteAt, State.byteAt, hs, ht, findBuffer, findBuffer]
  split
  · exact hb (Eq.symm ‹_›)
  · rfl

/-! ### ALLOC -/

theorem requestBuffer_byteAt {n : Nat} (h : s.Inv) (hd : s.dst = none) (name k : Nat) :
    (s.requestBuffer n).byteAt name k = s.byteAt name k := by
  have hdraw : s.draw.2.Inv := draw_frame s ▸ h.withInputs s.turns _ _
  have hdst : s.draw.2.dst = s.dst := by rw [draw_frame s]
  have hdel : s.draw.2.delivered = s.delivered := by rw [draw_frame s]
  rw [← byteAt_congr hdst hdel]
  rcases requestBuffer_eq s n with ⟨-, he⟩ | ⟨-, he⟩
  · rw [he, ← byteAt_grant (n := n) (hdst.trans hd) hdraw.names_used]
    exact byteAt_congr rfl rfl name k
  · rw [he]
    exact byteAt_congr rfl rfl name k

/-- A request writes the allocator's inputs, what the loop begins with, and PHASE or the result (R93, R116). -/
theorem requestBuffer_frame (s : State) (n : Nat) : ∃ answers draws nextName i j dst res phase,
    s.requestBuffer n = { s with
      answers := answers, draws := draws, nextName := nextName, i := i, j := j, dst := dst, res := res
      phase := phase } ∧ (phase ≠ .done → res = s.res) := by
  rcases requestBuffer_eq s n with ⟨-, he⟩ | ⟨-, he⟩ <;> rw [he, draw_frame s]
  · exact ⟨_, _, _, _, _, _, _, _, rfl, fun _ => rfl⟩
  · exact ⟨_, _, _, _, _, _, _, _, rfl, absurd rfl⟩

/-! ### Registers and bytes -/

/-- The registers that a step of ENCODE leaves unchanged, by the phase it begins in (R102). -/
structure EncodeKeeps (s t : State) : Prop where
  lenw : t.lenw = s.lenw
  cmd : t.cmd = s.cmd
  srcLen : t.srcLen = s.srcLen
  src : t.src = s.src
  v : t.v = s.v
  turns : t.turns = s.turns
  inputs : s.phase ≠ .alloc → t.answers = s.answers ∧ t.draws = s.draws ∧ t.nextName = s.nextName
  indices : s.phase ≠ .alloc → s.phase ≠ .run → t.i = s.i ∧ t.j = s.j
  outLen : s.phase ≠ .length → t.outLen = s.outLen
  acc : s.phase ≠ .run → t.acc = s.acc
  res : t.phase ≠ .done → t.res = s.res
  delivered : s.phase ≠ .finish → t.delivered = s.delivered

theorem execEncode_keeps (h : execEncode present s = .next t) : EncodeKeeps s t := by
  rcases execEncode_next h with ⟨hp, h⟩ | ⟨hp, h⟩ | ⟨hp, h⟩ | ⟨hp, h⟩ | ⟨hp, h⟩
  · -- E-CHECK
    obtain ⟨-, rfl⟩ | ⟨-, -, rfl⟩ := encodeCheck_ok hp h <;> constructor <;> simp
  · -- E-LENGTH
    obtain ⟨-, rfl⟩ | ⟨-, rfl⟩ := encodeLength_ok hp h <;> constructor <;> simp [hp]
  · -- E-ALLOC
    obtain rfl := encodeAlloc_ok hp h
    obtain ⟨_, _, _, _, _, _, _, _, ht, hres⟩ := requestBuffer_frame s (s.outLen + 1)
    rw [ht]
    constructor <;> simp +contextual [hp, hres]
  · -- E-GROUP
    obtain ⟨g, d, -, -, -, rfl⟩ := encodeGroup_ok hp h
    constructor <;> simp [hp]
  · -- E-FINISH
    obtain ⟨d, -, -, rfl⟩ := encodeFinish_ok hp h
    constructor <;> simp [hp]

/-- Every byte outside the places that E-GROUP and E-FINISH store to reads as before (R51, R102). -/
theorem execEncode_byteAt (hi : s.Inv) (h : execEncode present s = .next t) {name k : Nat}
    (hk : ∀ d, s.dst = some d → name = d.name →
      (s.phase = .run → k < s.j ∨ s.j + 4 ≤ k) ∧ (s.phase = .finish → k ≠ s.j)) :
    t.byteAt name k = s.byteAt name k := by
  have hbuf {d : NamedBuffer} (hd : s.dst = some d) : s.buffers = d :: s.delivered := by simp [State.buffers, hd]
  have hwf {d : NamedBuffer} (hd : s.dst = some d) (hj : s.j ≤ d.buf.size) : d.buf.wf :=
    Buffer.filledTo_wf (hi.dst_filled d hd).2 hj
  rcases execEncode_next h with ⟨hp, h⟩ | ⟨hp, h⟩ | ⟨hp, h⟩ | ⟨hp, h⟩ | ⟨hp, h⟩
  · -- E-CHECK
    obtain ⟨-, rfl⟩ | ⟨-, -, rfl⟩ := encodeCheck_ok hp h <;> exact byteAt_congr rfl rfl name k
  · -- E-LENGTH
    obtain ⟨-, rfl⟩ | ⟨-, rfl⟩ := encodeLength_ok hp h <;> exact byteAt_congr rfl rfl name k
  · -- E-ALLOC
    obtain rfl := encodeAlloc_ok hp h
    exact requestBuffer_byteAt hi (hi.dst_eq_none (by simp [hp])) name k
  · -- E-GROUP
    obtain ⟨g, d, -, hd, hroom, rfl⟩ := encodeGroup_ok hp h
    refine byteAt_of_buffers (hbuf hd) rfl fun hname => ?_
    exact Buffer.read_writeAll_of_not_mem _ _ _ _ (hwf hd (by omega)) hroom ((hk d hd hname).1 hp)
  · -- E-FINISH
    obtain ⟨d, hd, hroom, rfl⟩ := encodeFinish_ok hp h
    refine byteAt_of_buffers (hbuf hd) rfl fun hname => ?_
    rw [Buffer.read_write _ _ _ _ (hwf hd hroom.le), if_neg ((hk d hd hname).2 hp)]

/-- Settles O24: the registers are `execEncode_keeps`, the bytes `execEncode_byteAt`. -/
theorem encodeFrame : Obligations.EncodeFrame := by
  intro present s t hi h
  have hr := execEncode_keeps h
  exact ⟨hr.lenw, hr.cmd, hr.srcLen, hr.src, source_congr hr.src hr.srcLen, hr.v, hr.turns, hr.inputs, hr.indices,
    hr.outLen, hr.acc, hr.res, hr.delivered, fun _ _ => execEncode_byteAt hi h⟩

end Sys2Proof.Machine

/-! ## The text of ENCODE and its padding (O26) -/

namespace Sys2Proof.Machine

/-! ### The symbols of one group -/

/-- A group of `k` real bytes has `k + 1` symbols of the alphabet, then padding (R67). -/
theorem symbolsOf_getElem?_eq_padChar_iff {k m : Nat} {g : Group} (hk : 1 ≤ k) (hm : m < 4) :
    (symbolsOf k g)[m]? = some padChar ↔ k < m := by
  match m, hm with
  | 0, _ => simp [symbolsOf, fwd_ne_padChar]
  | 1, _ =>
    simp [symbolsOf, fwd_ne_padChar]
    omega
  | 2, _ => simp [symbolsOf, fwd_ne_padChar]
  | 3, _ => simp [symbolsOf, fwd_ne_padChar]

theorem allowed_of_mem_symbolsOf {k : Nat} {g : Group} {c : Byte} (hc : c ∈ symbolsOf k g) : allowed c = true := by
  have hite (p : Prop) [Decidable p] (v : Sextet) : allowed (if p then fwd v else padChar) = true := by
    split
    · exact allowed_fwd v
    · exact allowed_padChar
  simp only [symbolsOf, List.mem_cons, List.not_mem_nil, or_false] at hc
  rcases hc with rfl | rfl | rfl | rfl
  · exact allowed_fwd _
  · exact allowed_fwd _
  · exact hite _ _
  · exact hite _ _

/-- Every allowed character has bit 7 clear (R62, R70). -/
theorem toNat_lt_of_allowed {c : Byte} (h : allowed c = true) : c.toNat < 128 := by
  rcases (allowed_iff_fwd c).mp h with rfl | ⟨v, rfl⟩
  · decide
  · rw [fwd_toNat, alphabetCode]
    have := v.isLt
    split_ifs <;> omega

/-! ### The text, group by group -/

/-- Blocks of one length in a row: index `k` falls in block `k / c`. -/
theorem getElem?_flatMap_of_length {α β : Type} {f : α → List β} {c : Nat} (hc : 0 < c)
    (hf : ∀ x, (f x).length = c) (xs : List α) (k : Nat) :
    (xs.flatMap f)[k]? = xs[k / c]?.bind fun x => (f x)[k % c]? := by
  induction xs generalizing k with
  | nil => simp
  | cons x xs ih =>
    rw [List.flatMap_cons]
    rcases Nat.lt_or_ge k c with hk | hk
    · rw [List.getElem?_append_left (by rwa [hf]), Nat.div_eq_of_lt hk, Nat.mod_eq_of_lt hk]
      rfl
    · rw [List.getElem?_append_right (by rwa [hf]), hf, ih, Nat.div_eq_sub_div hc hk, Nat.mod_eq_sub_mod hk]
      rfl

theorem groupSymbols_length (bytes : List Byte) (g : Nat) : (groupSymbols bytes g).length = 4 :=
  symbolsOf_length _ _

/-- Four symbols for each group begun (R92, R96). -/
theorem encodeText_length (bytes : List Byte) : (encodeText bytes).length = encodedLength bytes.length := by
  simp [encodeText, groupSymbols_length, encodedLength, Nat.mul_comm]

/-- The symbol at index `k` is that of its place in its group. -/
theorem encodeText_getElem? {bytes : List Byte} {k : Nat} (hk : k < encodedLength bytes.length) :
    (encodeText bytes)[k]? = (groupSymbols bytes (k / 4))[k % 4]? := by
  have hg : k / 4 < (bytes.length + 2) / 3 := by
    unfold encodedLength at hk
    omega
  rw [encodeText, getElem?_flatMap_of_length (by decide) (groupSymbols_length bytes), List.getElem?_range hg]
  rfl

/-- `=` stands where the group of a symbol has fewer real bytes than the symbol's place in it. -/
theorem encodeText_getElem?_eq_padChar_iff {bytes : List Byte} {k : Nat} (hk : k < encodedLength bytes.length) :
    (encodeText bytes)[k]? = some padChar ↔ realBytes bytes.length (3 * (k / 4)) < k % 4 := by
  rw [encodeText_getElem? hk]
  refine symbolsOf_getElem?_eq_padChar_iff ?_ (Nat.mod_lt _ (by decide))
  unfold encodedLength at hk
  unfold realBytes
  omega

theorem allowed_of_mem_encodeText {bytes : List Byte} {c : Byte} (hc : c ∈ encodeText bytes) : allowed c = true := by
  obtain ⟨g, -, hc⟩ := List.mem_flatMap.mp hc
  exact allowed_of_mem_symbolsOf hc

/-- Settles O26: of the groups only the last can have fewer than three real bytes. -/
theorem paddingStandsOnlyAtTheEnd : Obligations.PaddingStandsOnlyAtTheEnd := by
  refine fun bytes _ => ⟨encodeText_length bytes, fun k hk => ?_, fun c hc => ?_⟩
  · rw [encodeText_length] at hk ⊢
    refine (encodeText_getElem?_eq_padChar_iff hk).trans ?_
    unfold encodedLength at hk ⊢
    unfold realBytes
    omega
  · exact ⟨allowed_of_mem_encodeText hc, toNat_lt_of_allowed (allowed_of_mem_encodeText hc)⟩

end Sys2Proof.Machine

/-! ## A run of ENCODE is the whole function (O48)

A run from CHECK is a row of tests, each of which fails or goes on; then the loop, by induction on the groups left.
-/

namespace Sys2Proof.Machine

variable {s t u : State}

/-! ### Runs that end in a result -/

/-- From `s` the machine is in DONE after exactly `n` steps and not before; the host then reads `r` (R185), has the
buffers delivered before, and none besides after a failure. -/
def State.YieldsAfter (s : State) (n : Nat) (r : Option (List Byte × Nat)) : Prop :=
  (∀ k u, k < n → runSteps k s = .next u → u.phase ≠ .done) ∧
  ∃ t, runSteps n s = .next t ∧ t.phase = .done ∧
    t.hostResult = some (r.map fun r => (r.1.map some, r.2)) ∧
    t.delivered.drop (t.delivered.length - s.delivered.length) = s.delivered ∧
    (t.hostResNull = some true → t.delivered = s.delivered)

theorem readyFlag_of_phase {p : Phase} (hp : s.phase = p) : s.readyFlag = p.ready := congrArg Phase.ready hp

theorem phase_ne_done_of_not_ready (hr : s.readyFlag = false) : s.phase ≠ .done :=
  fun hp => Bool.false_ne_true (hr.symm.trans (readyFlag_of_phase hp))

/-- One step more of an operation in progress, that delivers nothing. -/
theorem State.YieldsAfter.cons {n : Nat} {r : Option (List Byte × Nat)} (hu : u.YieldsAfter n r)
    (hr : s.readyFlag = false) (hs : step s = .next u) (hd : u.delivered = s.delivered) :
    s.YieldsAfter (n + 1) r := by
  obtain ⟨hbefore, t, hrun, hend⟩ := hu
  refine ⟨fun k v hk hv => ?_, t, by rw [runSteps_succ_of_next hs, hrun], hd ▸ hend⟩
  cases k with
  | zero =>
    cases hv
    exact phase_ne_done_of_not_ready hr
  | succ k =>
    rw [runSteps_succ_of_next hs] at hv
    exact hbefore k v (by omega) hv

theorem yieldsAfter_raiseFail (cause : FailCause) (s : State) : (raiseFail cause s).YieldsAfter 0 none :=
  ⟨fun _ _ hk => absurd hk (Nat.not_lt_zero _), _, rfl, rfl, rfl, by simp, fun _ => rfl⟩

/-- A test: the step fails where `c` holds (R146), else the operation goes on. -/
theorem yieldsAfter_test {c : Prop} [Decidable c] {cause : FailCause} {v : State} {n : Nat}
    {r : Option (List Byte × Nat)} (hr : s.readyFlag = false)
    (hs : step s = .next (if c then raiseFail cause u else v)) (hu : u.delivered = s.delivered)
    (hv : v.delivered = s.delivered) (hgo : ¬ c → step s = .next v → v.YieldsAfter n r) :
    s.YieldsAfter (if c then 1 else n + 1) (if c then none else r) := by
  split <;> rename_i hc
  · rw [if_pos hc] at hs
    exact (yieldsAfter_raiseFail cause u).cons hr hs hu
  · rw [if_neg hc] at hs
    exact (hgo hc hs).cons hr hs hv

/-- A step that delivers a buffer (R95, R118). -/
theorem yieldsAfter_deliver {d : NamedBuffer} {n : Nat} {bytes : List Byte} (hr : s.readyFlag = false)
    (hs : step s = .next { s with
      delivered := d :: s.delivered, dst := none, res := some { null := false, len := n, buf := some d.name }
      phase := .done })
    (hc : d.buf.contents = bytes.map some) : s.YieldsAfter 1 (some (bytes, n)) := by
  refine ⟨fun k v hk hv => ?_, _, runSteps_succ_of_next hs, rfl, ?_, ?_, nofun⟩
  · obtain rfl : k = 0 := by omega
    cases hv
    exact phase_ne_done_of_not_ready hr
  · simp [State.hostResult, findBuffer, hc]
  · simp

/-! ### An ENCODE that only the core moves -/

/-- CMD selects ENCODE, and nobody but the core has a coming turn. -/
structure State.EncodesAlone (s : State) : Prop where
  inv : s.Inv
  turns : s.turns = []
  op : s.cmdOp = false

namespace State.EncodesAlone

theorem step_eq (h : s.EncodesAlone) (hr : s.readyFlag = false) : step s = exec (.encode s.cmdPresent) s := by
  have hturn : step s = coreTurn s := by simp [step, h.turns]
  rw [hturn, coreTurn_of_not_ready hr, exec_operation, if_neg (by simp [h.op])]
  rfl

theorem keeps (h : s.EncodesAlone) (hr : s.readyFlag = false) (hs : step s = .next t) : EncodeKeeps s t :=
  execEncode_keeps ((h.step_eq hr).symm.trans hs)

theorem next (h : s.EncodesAlone) (hr : s.readyFlag = false) (hs : step s = .next t) : t.EncodesAlone where
  inv := step_inv h.inv hs
  turns := (h.keeps hr hs).turns.trans h.turns
  op := by rw [State.cmdOp, (h.keeps hr hs).cmd]; exact h.op

end State.EncodesAlone

/-! ### The loop -/

/-- The symbols of the groups that begin before index `i` (R96). -/
def encodedTo (bytes : List Byte) (i : Nat) : List Byte :=
  (List.range ((i + 2) / 3)).flatMap (groupSymbols bytes)

theorem encodedTo_zero (bytes : List Byte) : encodedTo bytes 0 = [] := rfl

theorem encodedTo_length (bytes : List Byte) : encodedTo bytes bytes.length = encodeText bytes := rfl

/-- One group more. -/
theorem encodedTo_add_realBytes {bytes : List Byte} {i : Nat} (hi : i < bytes.length) (hmod : i % 3 = 0) :
    encodedTo bytes (i + realBytes bytes.length i) =
      encodedTo bytes i ++ symbolsOf (realBytes bytes.length i) (groupAt bytes i) := by
  have hnext : (i + realBytes bytes.length i + 2) / 3 = (i + 2) / 3 + 1 := by
    unfold realBytes
    omega
  have hgroup : 3 * ((i + 2) / 3) = i := by omega
  rw [encodedTo, hnext, List.range_succ, List.flatMap_append, List.flatMap_singleton, groupSymbols, hgroup]
  rfl

/-- The bytes of DST are the symbols of the groups before I. -/
def State.Encoded (s : State) : Prop :=
  ∀ d ∈ s.dst, d.buf.cells.map (·.2) = encodedTo s.source s.i

/-- What ENCODE delivers of these source bytes: the text, its terminator and RES_LEN (R96). -/
def encodeResult (bytes : List Byte) : List Byte × Nat :=
  (encodeText bytes ++ [terminator], encodedLength bytes.length)

/-- E-GROUP writes the symbols of the next group. -/
theorem step_encode_run (h : s.EncodesAlone) (hp : s.phase = .run) (htext : s.Encoded) :
    ∃ t, step s = .next t ∧ t.Encoded ∧ t.phase.looping ∧ t.i = s.i + realBytes s.srcLen s.i := by
  have hlen : s.source.length = s.srcLen := h.inv.source_length (by simp [Phase.pastCheck, hp])
  obtain ⟨d, hd, hroom⟩ := h.inv.encode_room hp h.op
  obtain ⟨hi, hmod⟩ := h.inv.run_index hp
  rw [if_neg (by simp [h.op])] at hmod
  refine ⟨_, (h.step_eq (readyFlag_of_phase hp)).trans (exec_encode_run hp hi hlen hd hroom), ?_, ?_, rfl⟩
  · rintro _ ⟨⟩
    show _ = encodedTo s.source (s.i + realBytes s.srcLen s.i)
    rw [Buffer.writeAll_bytes _ (h.inv.dst_filled d hd).2, htext d hd, ← hlen,
      encodedTo_add_realBytes (hlen ▸ hi) hmod]
  · show Phase.looping (if _ then _ else _)
    split
    · exact .inr rfl
    · exact .inl rfl

/-- E-FINISH delivers the text and its terminator. -/
theorem yieldsAfter_finish (h : s.EncodesAlone) (hp : s.phase = .finish) (htext : s.Encoded) :
    s.YieldsAfter 1 (some (encodeResult s.source)) := by
  obtain ⟨d, hd, hsize⟩ := h.inv.encode_last_index hp h.op
  have hfill : d.buf.filledTo s.j := (h.inv.dst_filled d hd).2
  have hlen : s.source.length = s.srcLen := h.inv.source_length (by simp [Phase.pastCheck, hp])
  have hout : s.outLen = encodedLength s.source.length :=
    hlen ▸ (h.inv.encode_sized (by simp [Phase.sized, hp]) h.op).1
  have hfull : (d.buf.write s.j terminator).filledTo (d.buf.write s.j terminator).size := by
    rw [Buffer.write_size, hsize]
    exact Buffer.write_filledTo _ hfill
  rw [encodeResult, ← hout]
  refine yieldsAfter_deliver (d := { d with buf := d.buf.write s.j terminator }) (readyFlag_of_phase hp)
    ((h.step_eq (readyFlag_of_phase hp)).trans (exec_encode_finish hp hd (by omega))) ?_
  rw [Buffer.contents_filledTo hfull, Buffer.write_cells_of_filledTo _ hfill, List.map_append, htext d hd,
    h.inv.finish_index hp, ← hlen, encodedTo_length]
  rfl

/-- The loop with `n` groups still to come, then E-FINISH. -/
theorem yieldsAfter_loop {n : Nat} (h : s.EncodesAlone) (hp : s.phase.looping) (htext : s.Encoded)
    (hn : (s.srcLen - s.i + 2) / 3 = n) : s.YieldsAfter (n + 1) (some (encodeResult s.source)) := by
  induction n generalizing s with
  | zero =>
    rcases hp with hp | hp
    · have := (h.inv.run_index hp).1
      omega
    · exact yieldsAfter_finish h hp htext
  | succ n ih =>
    rcases hp with hp | hp
    · have hr : s.readyFlag = false := readyFlag_of_phase hp
      obtain ⟨t, hs, htext', hp', hi⟩ := step_encode_run h hp htext
      have hkeep := h.keeps hr hs
      have hleft : (t.srcLen - t.i + 2) / 3 = n := by
        rw [hkeep.srcLen, hi]
        unfold realBytes
        omega
      rw [← source_congr hkeep.src hkeep.srcLen]
      exact (ih (h.next hr hs) hp' htext' hleft).cons hr hs (hkeep.delivered (by simp [hp]))
    · have := h.inv.finish_index hp
      omega

/-! ### The tests before the loop -/

theorem draw_fst_congr (ha : t.answers = s.answers) (hd : t.draws = s.draws) : t.draw.1 = s.draw.1 := by
  unfold State.draw
  rw [ha, hd]
  split <;> rfl

@[simp] theorem draw_fst_enter (s : State) (p : Phase) : (s.enter p).draw.1 = s.draw.1 := draw_fst_congr rfl rfl
@[simp] theorem draw_fst_setOutLen (s : State) (n : Nat) : (s.setOutLen n).draw.1 = s.draw.1 := draw_fst_congr rfl rfl

/-- From ALLOC: the allocator's answer, then the loop over every group (R93). -/
theorem yieldsAfter_alloc (h : s.EncodesAlone) (hp : s.phase = .alloc) :
    s.YieldsAfter (if s.draw.1 = false then 1 else (s.srcLen + 2) / 3 + 1 + 1)
      (if s.draw.1 = false then none else some (encodeResult s.source)) := by
  have hr : s.readyFlag = false := readyFlag_of_phase hp
  have hdel : s.draw.2.delivered = s.delivered := by rw [draw_frame s]
  have hs : step s = .next (if s.draw.1 = false then raiseFail .alloc s.draw.2
      else (((s.draw.2.grant (s.outLen + 1)).setI 0).setJ 0).enter .run) := by
    rw [h.step_eq hr, exec_encode_alloc hp, State.requestBuffer]
    cases s.draw.1 <;> rfl
  refine yieldsAfter_test hr hs hdel hdel fun _ hs => ?_
  have hkeep := h.keeps hr hs
  rw [← source_congr hkeep.src hkeep.srcLen]
  refine yieldsAfter_loop (h.next hr hs) (.inl rfl) ?_ (by rw [hkeep.srcLen]; rfl)
  rintro _ ⟨⟩
  exact (encodedTo_zero _).symm

/-- The tests of R96 in the order of the steps. -/
theorem encodeWhole_eq {maxLen n : Nat} {present grant : Bool} {bytes : List Byte}
    (hn : present = true → bytes.length = n) : encodeWhole maxLen present bytes grant =
      if present = false ∨ n = 0 then none
      else if maxLen < encodedLength n + 1 then none
      else if grant = false then none else some (encodeResult bytes) := by
  cases present with
  | false => rfl
  | true =>
    obtain rfl := hn rfl
    by_cases hempty : bytes = []
    · simp [encodeWhole, hempty]
    rcases Nat.lt_or_ge maxLen (encodedLength bytes.length + 1) with hm | hm
    · simp [encodeWhole, hm, Nat.not_le.mpr hm]
    · cases grant <;> simp [encodeWhole, encodeResult, hempty, hm, Nat.not_lt.mpr hm]

/-- The steps of R100, one more for each test that passes. -/
theorem encodeSteps_eq (s : State) : encodeSteps s =
    if s.cmdPresent = false ∨ s.srcLen = 0 then 1
    else (if s.maxLen < encodedLength s.srcLen + 1 then 1
      else (if s.draw.1 = false then 1 else (s.srcLen + 2) / 3 + 1 + 1) + 1) + 1 := by
  unfold encodeSteps
  split_ifs <;> omega

/-- Settles O48: E-CHECK and E-LENGTH are the first two tests of R96, E-ALLOC the third, with the loop after it. -/
theorem encodeRunIsTheWholeFunction : Obligations.EncodeRunIsTheWholeFunction := by
  intro s h hp hop hturns
  have hs : s.EncodesAlone := ⟨h, hturns, hop⟩
  have hr : s.readyFlag = false := readyFlag_of_phase hp
  show s.YieldsAfter (encodeSteps s) (encodeWhole s.maxLen s.cmdPresent s.source s.draw.1)
  rw [encodeSteps_eq, encodeWhole_eq (h.source_held hr)]
  refine yieldsAfter_test hr ((hs.step_eq hr).trans (exec_encode_check hp)) rfl rfl fun _ hcheck => ?_
  have hu := hs.next hr hcheck
  refine yieldsAfter_test rfl ((hu.step_eq rfl).trans (exec_encode_length rfl)) rfl rfl fun _ hlength => ?_
  have hgo := yieldsAfter_alloc (hu.next rfl hlength) rfl
  rw [draw_fst_enter, draw_fst_setOutLen, draw_fst_enter] at hgo
  exact hgo

end Sys2Proof.Machine

/-! ## DECODE, step by step (O27 to O33) -/

namespace Sys2Proof.Machine

variable {s t : State} {present : Bool}

/-! ### What `exec` of DECODE answers in each phase -/

theorem exec_decode_check (hp : s.phase = .check) : exec (.decode present) s =
    .next (if present = false ∨ s.srcLen = 0 then raiseFail .null s else (s.setV 0).enter .validate) := by
  simp [exec, execDecode, hp, decodeCheck_eq hp]

theorem exec_decode_validate (hp : s.phase = .validate) (hv : s.v < s.source.length) : exec (.decode present) s =
    .next (if allowed (s.source.getD s.v 0) = true then
        (s.setV (s.v + 1)).enter (if s.v + 1 = s.srcLen then .length else .validate)
      else raiseFail .char s) := by
  simp only [exec, execDecode, hp, decodeValidate_of_lt hp hv, toOutcome_ok]

theorem exec_decode_length (hp : s.phase = .length) (hpos : 1 ≤ s.srcLen) (hlen : s.source.length = s.srcLen) :
    exec (.decode present) s =
      .next (if s.srcLen % 4 ≠ 0 then raiseFail .len4 s
        else (s.setOutLen (s.srcLen / 4 * 3 - padFlag (s.source.getD (s.srcLen - 1) 0) -
          padFlag (s.source.getD (s.srcLen - 2) 0))).enter .alloc) := by
  simp only [exec, execDecode, hp, decodeLength_of_pos hp hpos hlen, toOutcome_ok]

theorem exec_decode_alloc (hp : s.phase = .alloc) :
    exec (.decode present) s = .next (s.requestBuffer s.outLen) := by
  simp [exec, execDecode, hp, decodeAlloc_eq hp]

/-- D-GROUP, when the group can be read and DST has room for OUT_LEN bytes. -/
theorem exec_decode_run {g : Group} {d : NamedBuffer} (hp : s.phase = .run) (hg : s.readSymbols s.i = .ok g)
    (hd : s.dst = some d) (hroom : s.outLen ≤ d.buf.size) : exec (.decode present) s = .next
      { s with
        acc := g
        dst := some { d with buf := d.buf.writeAll s.j ((octetsOf g).take (s.outLen - s.j)) }
        i := s.i + 4
        j := s.j + min 3 (s.outLen - s.j)
        phase := if s.i + 4 = s.srcLen then .finish else .run } := by
  simp only [exec, execDecode, hp, decodeGroup_of_room hp hg hd hroom, toOutcome_ok]
  rfl

theorem exec_decode_finish {d : NamedBuffer} (hp : s.phase = .finish) (hd : s.dst = some d) :
    exec (.decode present) s = .next
      { s with
        delivered := d :: s.delivered
        dst := none
        res := some { null := false, len := s.outLen, buf := some d.name }
        phase := .done } := by
  simp only [exec, execDecode, hp, decodeFinish, (publish_ok hp).mpr ⟨d, hd, rfl⟩, toOutcome_ok]

/-! ### CHECK, VALIDATE, LENGTH and ALLOC -/

/-- Settles O27: `exec_decode_check`, with the failure entry written out. -/
theorem decodeCheckStep : Obligations.DecodeCheckStep :=
  fun _ _ hp => exec_decode_check hp

/-- Settles O28: the premises are clauses of the invariant; the step is `exec_decode_validate`. -/
theorem decodeValidateStep : Obligations.DecodeValidateStep := by
  refine ⟨fun s h hp => ?_, fun present s hp hv hlen => exec_decode_validate hp (hlen.symm ▸ hv)⟩
  obtain ⟨hop, hv, -⟩ := h.validating hp
  exact ⟨hop, hv, h.source_length (.inl hp)⟩

/-- Settles O29: `exec_decode_length`, with the padding flags written out. -/
theorem decodeLengthStep : Obligations.DecodeLengthStep :=
  fun _ _ hp hpos hlen => exec_decode_length hp hpos hlen

theorem padFlag_le_one (c : Byte) : padFlag c ≤ 1 := by
  unfold padFlag
  split <;> omega

/-- Settles O30: of the three bytes of each group at most two are taken off, and there is at least one group. -/
theorem decodeOutputLengthIsInRange : Obligations.DecodeOutputLengthIsInRange := by
  intro present s t h hp hs halloc
  have hpast : s.phase.pastCheck := .inr (.inl hp)
  have hpos : 1 ≤ s.srcLen := h.srcLen_pos hpast
  rw [exec_decode_length hp hpos (h.source_length hpast), Host.Outcome.next.injEq] at hs
  subst hs
  by_cases h4 : s.srcLen % 4 = 0
  · rw [if_neg (not_not.mpr h4), State.enter_outLen, State.setOutLen_outLen]
    have h1 := padFlag_le_one (s.source.getD (s.srcLen - 1) 0)
    have h2 := padFlag_le_one (s.source.getD (s.srcLen - 2) 0)
    have hmax := h.srcLen_le
    omega
  · rw [if_pos h4] at halloc
    exact absurd halloc (by simp)

/-- Settles O31: a draw leaves the next name alone, so the fresh buffer takes it. -/
theorem decodeAllocStep : Obligations.DecodeAllocStep := by
  intro present s hp
  have hname : s.draw.2.nextName = s.nextName := by rw [draw_frame s]
  rw [exec_decode_alloc hp, ← hname]
  rfl

/-! ### RUN -/

theorem Buffer.writeAll_append (b : Buffer) (k : Nat) (xs ys : List Byte) :
    b.writeAll k (xs ++ ys) = (b.writeAll k xs).writeAll (k + xs.length) ys := by
  induction xs generalizing b k with
  | nil => rfl
  | cons x xs ih =>
    rw [List.cons_append, writeAll, ih, List.length_cons, Nat.add_assoc, Nat.add_comm 1]
    rfl

/-- The last byte of a row is written only when its place is below `n`, the places below `n` being all that is
written (R117). -/
theorem Buffer.writeAll_take_concat (b : Buffer) (k n : Nat) (xs : List Byte) (x : Byte) :
    b.writeAll k ((xs ++ [x]).take (n - k)) =
      if k + xs.length < n then (b.writeAll k (xs.take (n - k))).write (k + xs.length) x
      else b.writeAll k (xs.take (n - k)) := by
  rw [List.take_append]
  split
  · rw [List.take_of_length_le (l := xs) (by omega), List.take_of_length_le (l := [x]) (show 1 ≤ _ by omega),
      writeAll_append]
    rfl
  · rw [show n - k - xs.length = 0 by omega, List.take_zero, List.append_nil]

/-- The three bytes of a group, each written while its place is below OUT_LEN. -/
theorem Buffer.writeAll_octetsOf (b : Buffer) (j n : Nat) (g : Group) :
    b.writeAll j ((octetsOf g).take (n - j)) =
      let b1 := if j < n then b.write j (octet0 g) else b
      let b2 := if j + 1 < n then b1.write (j + 1) (octet1 g) else b1
      if j + 2 < n then b2.write (j + 2) (octet2 g) else b2 := by
  have h1 := b.writeAll_take_concat j n [] (octet0 g)
  have h2 := b.writeAll_take_concat j n [octet0 g] (octet1 g)
  have h3 := b.writeAll_take_concat j n [octet0 g, octet1 g] (octet2 g)
  simp only [List.nil_append, List.cons_append, List.take_nil, writeAll, List.length_cons, List.length_nil] at h1 h2 h3
  rw [octetsOf, h3, h2, h1]
  rfl

theorem readSymbols_of_sextets {i : Nat} {x0 x1 x2 x3 : Sextet} (hi : i + 4 ≤ s.source.length)
    (h0 : sextetOf (s.source.getD i 0) = some x0) (h1 : sextetOf (s.source.getD (i + 1) 0) = some x1)
    (h2 : sextetOf (s.source.getD (i + 2) 0) = some x2) (h3 : sextetOf (s.source.getD (i + 3) 0) = some x3) :
    s.readSymbols i = .ok (groupOfSextets x0 x1 x2 x3) := by
  simp (disch := omega) only [State.readSymbols, readSrc_of_lt, readSextet_ok.mpr h0, readSextet_ok.mpr h1,
    readSextet_ok.mpr h2, readSextet_ok.mpr h3, ok_bind]

/-- Settles O32: the premises are what the invariant gives; the step is `exec_decode_run`, whose three writes are
written out. -/
theorem decodeGroupStep : Obligations.DecodeGroupStep := by
  refine ⟨fun s h hp hop => ?_, fun present s d x0 x1 x2 x3 hp hi hlen hd hroom h0 h1 h2 h3 => ?_⟩
  · have hpast : s.phase.pastCheck := by simp [Phase.pastCheck, hp]
    have hlen := h.source_length hpast
    have hall := h.validated hpast (by simp [hp]) hop
    exact ⟨(h.run_index hp).1, h.decode_i_mod (.inl hp) hop, h.decode_group_le hp hop, hlen, h.decode_room hp hop,
      fun k hk => sextetOf_of_allowed (allowed_getD hall (hlen.symm ▸ hk))⟩
  · rw [exec_decode_run hp (readSymbols_of_sextets (hlen.symm ▸ hi) h0 h1 h2 h3) hd hroom, Buffer.writeAll_octetsOf]
    rfl

/-! ### FINISH -/

/-- DST has no byte beyond those written (R116, R118). -/
theorem State.Inv.decode_last_index (h : s.Inv) (hp : s.phase = .finish) (hop : s.cmdOp = true) :
    ∃ d, s.dst = some d ∧ d.buf.size = s.j := by
  obtain ⟨d, hd, hsize⟩ := h.dst_of_looping (.inr hp)
  exact ⟨d, hd, by simp [hsize, h.j_eq_outLen hp, State.requestSize, hop]⟩

/-- Settles O33: the indices are those of the invariant; the step is `exec_decode_finish`. -/
theorem decodeFinishStep : Obligations.DecodeFinishStep :=
  ⟨fun _ h hp hop => ⟨h.finish_index hp, h.j_eq_outLen hp, h.decode_last_index hp hop⟩,
    fun _ _ _ hp hd => ⟨_, exec_decode_finish hp hd, rfl⟩⟩

end Sys2Proof.Machine

/-! ## What a step of DECODE leaves unchanged (O34) -/

namespace Sys2Proof.Machine

variable {s t : State} {present : Bool}

/-- The registers that a step of DECODE leaves unchanged, by the phase it begins in: but for V, those that a step of
ENCODE leaves so (R126). -/
structure DecodeKeeps (s t : State) : Prop extends EncodeKeeps { s with v := t.v } t where
  index : s.phase ≠ .check → s.phase ≠ .validate → t.v = s.v

theorem DecodeKeeps.source_eq (h : DecodeKeeps s t) : t.source = s.source := source_congr h.src h.srcLen

theorem execDecode_keeps (h : execDecode present s = .next t) : DecodeKeeps s t := by
  rcases execDecode_next h with ⟨hp, h⟩ | ⟨hp, h⟩ | ⟨hp, h⟩ | ⟨hp, h⟩ | ⟨hp, h⟩ | ⟨hp, h⟩
  · -- D-CHECK
    obtain ⟨-, rfl⟩ | ⟨-, -, rfl⟩ := decodeCheck_ok hp h <;> exact ⟨by constructor <;> simp, by simp [hp]⟩
  · -- D-VALIDATE
    obtain ⟨c, -, ⟨-, rfl⟩ | ⟨-, rfl⟩⟩ := decodeValidate_ok hp h <;>
      exact ⟨by constructor <;> simp [hp], by simp [hp]⟩
  · -- D-LENGTH
    obtain ⟨-, rfl⟩ | ⟨-, c1, c2, -, -, rfl⟩ := decodeLength_ok hp h <;>
      exact ⟨by constructor <;> simp [hp], by simp⟩
  · -- D-ALLOC
    obtain rfl := decodeAlloc_ok hp h
    obtain ⟨_, _, _, _, _, _, _, _, ht, hres⟩ := requestBuffer_frame s s.outLen
    rw [ht]
    exact ⟨by constructor <;> simp +contextual [hp, hres], by simp⟩
  · -- D-GROUP
    obtain ⟨g, c, -, hc, rfl⟩ := decodeGroup_ok hp h
    have ec : c = { s.setAcc g with dst := c.dst, j := c.j } := emit_three_keeps (s := s.setAcc g) hp hc
    rw [ec]
    exact ⟨by constructor <;> simp [hp], by simp⟩
  · -- D-FINISH
    obtain ⟨d, -, rfl⟩ := (publish_ok hp).mp h
    exact ⟨by constructor <;> simp [hp], by simp⟩

theorem State.outLen_le_requestSize (s : State) : s.outLen ≤ s.requestSize := by
  unfold State.requestSize
  split <;> omega

/-- Every byte outside the places that D-GROUP stores to reads as before (R51, R126). -/
theorem execDecode_byteAt (hi : s.Inv) (h : execDecode present s = .next t) {name k : Nat}
    (hk : ∀ d, s.dst = some d → name = d.name → s.phase = .run → k < s.j ∨ min (s.j + 3) s.outLen ≤ k) :
    t.byteAt name k = s.byteAt name k := by
  have hbuf {d : NamedBuffer} (hd : s.dst = some d) : s.buffers = d :: s.delivered := by simp [State.buffers, hd]
  rcases execDecode_next h with ⟨hp, h⟩ | ⟨hp, h⟩ | ⟨hp, h⟩ | ⟨hp, h⟩ | ⟨hp, h⟩ | ⟨hp, h⟩
  · -- D-CHECK
    obtain ⟨-, rfl⟩ | ⟨-, -, rfl⟩ := decodeCheck_ok hp h <;> exact byteAt_congr rfl rfl name k
  · -- D-VALIDATE
    obtain ⟨c, -, ⟨-, rfl⟩ | ⟨-, rfl⟩⟩ := decodeValidate_ok hp h <;> exact byteAt_congr rfl rfl name k
  · -- D-LENGTH
    obtain ⟨-, rfl⟩ | ⟨-, c1, c2, -, -, rfl⟩ := decodeLength_ok hp h <;> exact byteAt_congr rfl rfl name k
  · -- D-ALLOC
    obtain rfl := decodeAlloc_ok hp h
    exact requestBuffer_byteAt hi (hi.dst_eq_none (by simp [hp])) name k
  · -- D-GROUP
    obtain ⟨g, c, -, hc, rfl⟩ := decodeGroup_ok hp h
    obtain ⟨d, hd, hsize⟩ := hi.dst_of_looping (.inl hp)
    have hroom : s.outLen ≤ d.buf.size := hsize ▸ s.outLen_le_requestSize
    have hj : s.j ≤ s.outLen := (hi.indices_le (.inl hp)).2
    have hwf : d.buf.wf := Buffer.filledTo_wf (hi.dst_filled d hd).2 (hj.trans hroom)
    rw [emit_three (s := s.setAcc g) hp hd hroom] at hc
    obtain rfl := Except.ok.inj hc
    refine byteAt_of_buffers (hbuf hd) rfl fun hname => Buffer.read_writeAll_of_not_mem _ _ _ _ hwf ?_ ?_
    · simp only [State.setAcc_j, State.setAcc_outLen, List.length_take, List.length_cons, List.length_nil]
      omega
    · have := hk d hd hname hp
      simp only [State.setAcc_j, State.setAcc_outLen, List.length_take, List.length_cons, List.length_nil]
      omega
  · -- D-FINISH
    obtain ⟨d, hd, rfl⟩ := (publish_ok hp).mp h
    exact byteAt_of_buffers (d := d) (hbuf hd) rfl fun _ => rfl

/-- Settles O34: the registers are `execDecode_keeps`, the bytes `execDecode_byteAt`. -/
theorem decodeFrame : Obligations.DecodeFrame := by
  intro present s t hi h
  have hr := execDecode_keeps h
  exact ⟨hr.lenw, hr.cmd, hr.srcLen, hr.src, hr.source_eq, hr.turns, hr.index, hr.inputs, hr.indices,
    hr.outLen, hr.acc, hr.res, hr.delivered, fun _ _ => execDecode_byteAt hi h⟩

end Sys2Proof.Machine

/-! ## A run of DECODE is the whole function (O49)

As for ENCODE: a row of tests, of which the validation pass has one for each character, by induction on the characters
left; then the loop, by induction on the groups left.
-/

namespace Sys2Proof.Machine

variable {s t : State}

/-! ### A DECODE that only the core moves -/

/-- CMD selects DECODE, and nobody but the core has a coming turn. -/
structure State.DecodesAlone (s : State) : Prop where
  inv : s.Inv
  turns : s.turns = []
  op : s.cmdOp = true

namespace State.DecodesAlone

theorem step_eq (h : s.DecodesAlone) (hr : s.readyFlag = false) : step s = exec (.decode s.cmdPresent) s := by
  have hturn : step s = coreTurn s := by simp [step, h.turns]
  rw [hturn, coreTurn_of_not_ready hr, exec_operation, if_pos h.op]
  rfl

theorem keeps (h : s.DecodesAlone) (hr : s.readyFlag = false) (hs : step s = .next t) : DecodeKeeps s t :=
  execDecode_keeps ((h.step_eq hr).symm.trans hs)

theorem next (h : s.DecodesAlone) (hr : s.readyFlag = false) (hs : step s = .next t) : t.DecodesAlone where
  inv := step_inv h.inv hs
  turns := (h.keeps hr hs).turns.trans h.turns
  op := by rw [State.cmdOp, (h.keeps hr hs).cmd]; exact h.op

end State.DecodesAlone

/-! ### The loop -/

/-- The first `D` of the octets of the groups that begin before index `i` (R119). -/
def decodedTo (text : List Byte) (i : Nat) : List Byte :=
  ((List.range (i / 4)).flatMap fun g => octetsOf (decodeGroupAt text g)).take (decodedLength text)

theorem decodedTo_zero (text : List Byte) : decodedTo text 0 = [] := List.take_nil

theorem decodedTo_length (text : List Byte) : decodedTo text text.length = decodeText text := rfl

theorem octetsOf_length (g : Group) : (octetsOf g).length = 3 := rfl

/-- One group more, cut where the bytes reach `D`. -/
theorem decodedTo_add_four (text : List Byte) (i : Nat) :
    decodedTo text (i + 4) = decodedTo text i ++
      (octetsOf (decodeGroupAt text (i / 4))).take (decodedLength text - 3 * (i / 4)) := by
  rw [decodedTo, Nat.add_div_right i (by decide), List.range_succ, List.flatMap_append,
    List.flatMap_singleton, List.take_append]
  simp [decodedTo, octetsOf_length, Nat.mul_comm]

/-- The bytes of DST are those of the groups before I, as far as OUT_LEN lets them be written. -/
def State.Decoded (s : State) : Prop :=
  ∀ d ∈ s.dst, d.buf.cells.map (·.2) = decodedTo s.source s.i

/-- The group at I, as R119 numbers it. -/
theorem State.DecodesAlone.readSymbols_eq (h : s.DecodesAlone) (hp : s.phase = .run) :
    s.readSymbols s.i = .ok (decodeGroupAt s.source (s.i / 4)) := by
  have hpast : s.phase.pastCheck := by simp [Phase.pastCheck, hp]
  have hi : 4 * (s.i / 4) = s.i := by
    have := h.inv.decode_i_mod (.inl hp) h.op
    omega
  rw [decodeGroupAt, hi]
  exact readSymbols_of_allowed (by rw [h.inv.source_length hpast]; exact h.inv.decode_group_le hp h.op)
    (h.inv.validated hpast (by simp [hp]) h.op)

/-- Where the loop goes on from a group (R117). -/
theorem looping_ite {c : Prop} [Decidable c] : Phase.looping (if c then .finish else .run) := by
  split
  · exact .inr rfl
  · exact .inl rfl

/-- D-GROUP writes the bytes of the next group. -/
theorem step_decode_run (h : s.DecodesAlone) (hp : s.phase = .run) (hbytes : s.Decoded) :
    ∃ t, step s = .next t ∧ t.Decoded ∧ t.phase.looping ∧ t.i = s.i + 4 := by
  obtain ⟨d, hd, hroom⟩ := h.inv.decode_room hp h.op
  have hj := h.inv.decode_indices (.inl hp) h.op
  have hout := (h.inv.decode_sized (.inr (.inl hp)) h.op).2
  refine ⟨_, (h.step_eq (readyFlag_of_phase hp)).trans (exec_decode_run hp (h.readSymbols_eq hp) hd hroom), ?_,
    looping_ite, rfl⟩
  rintro _ ⟨⟩
  show _ = decodedTo s.source (s.i + 4)
  rw [Buffer.writeAll_bytes _ (h.inv.dst_filled d hd).2, hbytes d hd, decodedTo_add_four, ← hout,
    show s.outLen - s.j = s.outLen - 3 * (s.i / 4) by omega]

/-- What DECODE delivers of this text: the bytes and RES_LEN (R119). -/
def decodeResult (text : List Byte) : List Byte × Nat := (decodeText text, decodedLength text)

/-- D-FINISH delivers the bytes. -/
theorem decode_yieldsAfter_finish (h : s.DecodesAlone) (hp : s.phase = .finish) (hbytes : s.Decoded) :
    s.YieldsAfter 1 (some (decodeResult s.source)) := by
  obtain ⟨d, hd, hsize⟩ := h.inv.decode_last_index hp h.op
  have hfull : d.buf.filledTo d.buf.size := hsize ▸ (h.inv.dst_filled d hd).2
  have hlen : s.source.length = s.srcLen := h.inv.source_length (by simp [Phase.pastCheck, hp])
  rw [decodeResult, ← (h.inv.decode_sized (by simp [Phase.sized, hp]) h.op).2]
  refine yieldsAfter_deliver (readyFlag_of_phase hp)
    ((h.step_eq (readyFlag_of_phase hp)).trans (exec_decode_finish hp hd)) ?_
  rw [Buffer.contents_filledTo hfull, hbytes d hd, h.inv.finish_index hp, ← hlen, decodedTo_length]

/-- The loop with `n` groups still to come, then D-FINISH. -/
theorem decode_yieldsAfter_loop {n : Nat} (h : s.DecodesAlone) (hp : s.phase.looping) (hbytes : s.Decoded)
    (hn : (s.srcLen - s.i) / 4 = n) : s.YieldsAfter (n + 1) (some (decodeResult s.source)) := by
  induction n generalizing s with
  | zero =>
    rcases hp with hp | hp
    · have := h.inv.decode_group_le hp h.op
      omega
    · exact decode_yieldsAfter_finish h hp hbytes
  | succ n ih =>
    rcases hp with hp | hp
    · have hr : s.readyFlag = false := readyFlag_of_phase hp
      obtain ⟨t, hs, hbytes', hp', hi⟩ := step_decode_run h hp hbytes
      have hkeep := h.keeps hr hs
      have hlen : t.srcLen = s.srcLen := hkeep.srcLen
      rw [← hkeep.source_eq]
      exact (ih (h.next hr hs) hp' hbytes' (by omega)).cons hr hs (hkeep.delivered (by simp [hp]))
    · have := h.inv.finish_index hp
      omega

/-! ### The tests before the loop -/

/-- From ALLOC: the allocator's answer, then the loop over every group (R116). -/
theorem decode_yieldsAfter_alloc (h : s.DecodesAlone) (hp : s.phase = .alloc) :
    s.YieldsAfter (if s.draw.1 = false then 1 else s.srcLen / 4 + 1 + 1)
      (if s.draw.1 = false then none else some (decodeResult s.source)) := by
  have hr : s.readyFlag = false := readyFlag_of_phase hp
  have hdel : s.draw.2.delivered = s.delivered := by rw [draw_frame s]
  have hs : step s = .next (if s.draw.1 = false then raiseFail .alloc s.draw.2
      else (((s.draw.2.grant s.outLen).setI 0).setJ 0).enter .run) := by
    rw [h.step_eq hr, exec_decode_alloc hp, State.requestBuffer]
    cases s.draw.1 <;> rfl
  refine yieldsAfter_test hr hs hdel hdel fun _ hs => ?_
  have hkeep := h.keeps hr hs
  have hlen : _ = s.srcLen := hkeep.srcLen
  rw [← hkeep.source_eq]
  refine decode_yieldsAfter_loop (h.next hr hs) (.inl rfl) ?_ (by rw [hlen]; rfl)
  rintro _ ⟨⟩
  exact (decodedTo_zero _).symm

/-- The steps of DECODE from LENGTH on, for a text of `n` characters (R123). -/
def lengthSteps (n : Nat) (grant : Bool) : Nat :=
  if n % 4 ≠ 0 then 1 else (if grant = false then 1 else n / 4 + 1 + 1) + 1

/-- DECODE of a text of allowed characters (R119). -/
def lengthResult (text : List Byte) (grant : Bool) : Option (List Byte × Nat) :=
  if text.length % 4 ≠ 0 then none else if grant = false then none else some (decodeResult text)

@[simp] theorem draw_fst_setV (s : State) (n : Nat) : (s.setV n).draw.1 = s.draw.1 := draw_fst_congr rfl rfl

/-- From LENGTH: the length check, then the request (R114). -/
theorem decode_yieldsAfter_length (h : s.DecodesAlone) (hp : s.phase = .length) :
    s.YieldsAfter (lengthSteps s.srcLen s.draw.1) (lengthResult s.source s.draw.1) := by
  have hr : s.readyFlag = false := readyFlag_of_phase hp
  have hpast : s.phase.pastCheck := .inr (.inl hp)
  have hlen := h.inv.source_length hpast
  rw [lengthResult, hlen]
  refine yieldsAfter_test hr ((h.step_eq hr).trans (exec_decode_length hp (h.inv.srcLen_pos hpast) hlen)) rfl rfl
    fun _ hs => ?_
  have hgo := decode_yieldsAfter_alloc (h.next hr hs) rfl
  rwa [draw_fst_enter, draw_fst_setOutLen] at hgo

/-- The steps of DECODE with the characters `rest` still to be validated, and `n` steps after that (R123). -/
def validationSteps (n : Nat) : List Byte → Nat
  | [] => n
  | c :: cs => if allowed c = false then 1 else validationSteps n cs + 1

/-- D-VALIDATE on the character `c`, with the characters `cs` after it. -/
theorem step_decode_validate {c : Byte} {cs : List Byte} (h : s.DecodesAlone) (hp : s.phase = .validate)
    (hrest : s.source.drop s.v = c :: cs) : step s = .next (if allowed c = false then raiseFail .char s
      else (s.setV (s.v + 1)).enter (if cs = [] then .length else .validate)) := by
  have hlen := h.inv.source_length (.inl hp)
  have hv : s.v < s.source.length := hlen ▸ (h.inv.validating hp).2.1
  obtain ⟨hc, hcs⟩ : s.source[s.v] = c ∧ s.source.drop (s.v + 1) = cs := by
    rwa [List.drop_eq_getElem_cons hv, List.cons.injEq] at hrest
  have hend : s.v + 1 = s.srcLen ↔ cs = [] := by
    rw [← hcs, List.drop_eq_nil_iff]
    omega
  rw [h.step_eq (readyFlag_of_phase hp), exec_decode_validate hp hv, List.getD_eq_getElem _ _ hv, hc]
  simp only [hend]
  cases allowed c <;> rfl

theorem ite_all_allowed_cons {α : Type} (c : Byte) (cs : List Byte) (r : Option α) :
    (if (c :: cs).all allowed = false then none else r) =
      if allowed c = false then none else if cs.all allowed = false then none else r := by
  cases hc : allowed c <;> simp [hc]

/-- The validation pass with the characters `rest` still to come; when none is left it is over (R113). -/
theorem decode_yieldsAfter_validation {rest : List Byte} (h : s.DecodesAlone) (hrest : s.source.drop s.v = rest)
    (hp : s.phase = if rest = [] then .length else .validate) :
    s.YieldsAfter (validationSteps (lengthSteps s.srcLen s.draw.1) rest)
      (if rest.all allowed = false then none else lengthResult s.source s.draw.1) := by
  induction rest generalizing s with
  | nil => exact decode_yieldsAfter_length h hp
  | cons c cs ih =>
    have hr : s.readyFlag = false := readyFlag_of_phase (p := .validate) hp
    have hcs : s.source.drop (s.v + 1) = cs := by rw [← List.tail_drop, hrest, List.tail_cons]
    rw [ite_all_allowed_cons]
    refine yieldsAfter_test hr (step_decode_validate h hp hrest) rfl rfl fun _ hs => ?_
    have hgo := ih (h.next hr hs) hcs rfl
    rwa [draw_fst_enter, draw_fst_setV] at hgo

/-- The tests of R119 in the order of the steps. -/
theorem decodeWhole_eq {n : Nat} {present grant : Bool} {text : List Byte}
    (hn : present = true → text.length = n) : decodeWhole present text grant =
      if present = false ∨ n = 0 then none
      else if text.all allowed = false then none else lengthResult text grant := by
  cases present with
  | false => rfl
  | true =>
    obtain rfl := hn rfl
    by_cases hempty : text = []
    · simp [decodeWhole, hempty]
    cases hall : text.all allowed with
    | false => simp [decodeWhole, hall]
    | true =>
      by_cases h4 : text.length % 4 = 0
      · cases grant <;> simp [decodeWhole, lengthResult, decodeResult, hempty, hall, h4]
      · simp [decodeWhole, lengthResult, hempty, hall, h4]

theorem validationSteps_eq (n : Nat) (text : List Byte) : validationSteps n text =
    if (text.findIdx fun c => !allowed c) < text.length then 1 + text.findIdx fun c => !allowed c
    else text.length + n := by
  induction text with
  | nil => simp [validationSteps]
  | cons c cs ih =>
    rw [validationSteps, List.findIdx_cons, ih, List.length_cons]
    cases allowed c
    · simp
    · simp only [Bool.true_eq_false, if_false, Bool.not_true, cond_false, Nat.add_lt_add_iff_right]
      split_ifs <;> omega

/-- The steps of R123: one for CHECK, then those of the validation pass and what follows it. -/
theorem decodeSteps_eq (hn : s.cmdPresent = true → s.source.length = s.srcLen) : decodeSteps s =
    if s.cmdPresent = false ∨ s.srcLen = 0 then 1
    else validationSteps (lengthSteps s.srcLen s.draw.1) s.source + 1 := by
  unfold decodeSteps
  split
  · rfl
  · rename_i hgo
    rw [validationSteps_eq, hn (by simpa using fun h => hgo (.inl h)), lengthSteps]
    dsimp only
    split_ifs <;> omega

/-- Settles O49: D-CHECK and the validation pass are the first tests of R119, D-LENGTH and D-ALLOC the others, with the
loop after them. -/
theorem decodeRunIsTheWholeFunction : Obligations.DecodeRunIsTheWholeFunction := by
  intro s h hp hop hturns
  have hs : s.DecodesAlone := ⟨h, hturns, hop⟩
  have hr : s.readyFlag = false := readyFlag_of_phase hp
  have hlen := h.source_held hr
  show s.YieldsAfter (decodeSteps s) (decodeWhole s.cmdPresent s.source s.draw.1)
  rw [decodeSteps_eq hlen, decodeWhole_eq hlen]
  refine yieldsAfter_test hr ((hs.step_eq hr).trans (exec_decode_check hp)) rfl rfl fun hgo hcheck => ?_
  obtain ⟨hpres, hpos⟩ := not_or.mp hgo
  have hne : s.source ≠ [] := by
    rw [← List.length_pos_iff, hlen (by simpa using hpres)]
    omega
  have hgo := decode_yieldsAfter_validation (hs.next hr hcheck) List.drop_zero (if_neg hne).symm
  rwa [draw_fst_enter, draw_fst_setV] at hgo

end Sys2Proof.Machine

/-! ## Padding before the end, and the text of ENCODE decoded (O35, O52) -/

namespace Sys2Proof.Machine

/-! ### `=` and `A` stand for the same six bits (R121) -/

/-- `A` in place of `=`. -/
def padToA (c : Byte) : Byte := if c = padChar then 0x41 else c

theorem sextetOf_padToA (c : Byte) : sextetOf (padToA c) = sextetOf c := by
  unfold padToA
  split
  · rename_i hpad
    rw [hpad]
    rfl
  · rfl

/-- The text with `A` for every `=` before its last two places. -/
def padInteriorToA (text : List Byte) : List Byte :=
  (text.take (text.length - 2)).map padToA ++ text.drop (text.length - 2)

theorem padInteriorToA_length (text : List Byte) : (padInteriorToA text).length = text.length := by
  simp [padInteriorToA]

theorem padInteriorToA_getElem? (text : List Byte) (k : Nat) :
    (padInteriorToA text)[k]? = if k < text.length - 2 then text[k]?.map padToA else text[k]? := by
  have hlen : ((text.take (text.length - 2)).map padToA).length = text.length - 2 := by simp
  rw [padInteriorToA]
  split
  · rename_i hk
    rw [List.getElem?_append_left (by rwa [hlen]), List.getElem?_map, List.getElem?_take_of_lt hk]
  · rw [List.getElem?_append_right (by omega), hlen, List.getElem?_drop]
    congr 1
    omega

/-- Every character stands for the same six bits as before. -/
theorem sextetAt_padInteriorToA (text : List Byte) (k : Nat) :
    sextetAt (padInteriorToA text) k = sextetAt text k := by
  rw [sextetAt, sextetAt, List.getD_eq_getElem?_getD, List.getD_eq_getElem?_getD, padInteriorToA_getElem?]
  split
  · cases text[k]? with
    | none => rfl
    | some c => exact congrArg (·.getD 0) (sextetOf_padToA c)
  · rfl

/-- The last two characters, on which alone the length depends, stay. -/
theorem decodedLength_padInteriorToA (text : List Byte) :
    decodedLength (padInteriorToA text) = decodedLength text := by
  have hpad (k : Nat) (hk : text.length - 2 ≤ k) : padAt (padInteriorToA text) k = padAt text k := by
    simp only [padAt, padInteriorToA_getElem?, Nat.not_lt.mpr hk, if_false]
  rw [decodedLength, decodedLength, padInteriorToA_length, hpad _ (by omega), hpad _ (by omega)]

/-- Settles O35: neither the length nor any six bits change. -/
theorem interiorPaddingActsAsTheCharacterA : Obligations.InteriorPaddingActsAsTheCharacterA := by
  intro text _
  show decodeText (padInteriorToA text) = decodeText text
  simp only [decodeText, decodeGroupAt, padInteriorToA_length, sextetAt_padInteriorToA, decodedLength_padInteriorToA]

/-! ### The groups of ENCODE's text (R67, R68) -/

/-- The characters of a group give its six bits back, when those that padding stands for are zero. -/
theorem decodeGroupAt_symbolsOf {k : Nat} {g : Group} (h2 : k < 2 → sextet2 g = 0) (h3 : k < 3 → sextet3 g = 0) :
    decodeGroupAt (symbolsOf k g) 0 = g := by
  have e2 : sextetAt (symbolsOf k g) 2 = sextet2 g := by
    rcases Nat.lt_or_ge k 2 with hk | hk
    · simp [sextetAt, symbolsOf, Nat.not_le.mpr hk, h2 hk]
    · simp [sextetAt, symbolsOf, hk]
  have e3 : sextetAt (symbolsOf k g) 3 = sextet3 g := by
    rcases Nat.lt_or_ge k 3 with hk | hk
    · simp [sextetAt, symbolsOf, Nat.not_le.mpr hk, h3 hk]
    · simp [sextetAt, symbolsOf, hk]
  have e0 : sextetAt (symbolsOf k g) 0 = sextet0 g := by simp [sextetAt, symbolsOf]
  have e1 : sextetAt (symbolsOf k g) 1 = sextet1 g := by simp [sextetAt, symbolsOf]
  calc decodeGroupAt (symbolsOf k g) 0
      = groupOfSextets (sextet0 g) (sextet1 g) (sextet2 g) (sextet3 g) := by rw [← e0, ← e1, ← e2, ← e3]; rfl
    _ = g := groupOfSextets_sextets g

/-- What padding stands for is zero, since a missing byte is (R67). -/
theorem decodeGroupAt_groupSymbols (bytes : List Byte) (g : Nat) :
    decodeGroupAt (groupSymbols bytes g) 0 = groupAt bytes (3 * g) := by
  have hmissing {m : Nat} (hm : bytes.length ≤ 3 * g + m) : bytes.getD (3 * g + m) 0 = 0 :=
    List.getD_eq_default _ _ hm
  refine decodeGroupAt_symbolsOf (fun hk => ?_) (fun hk => ?_) <;> unfold realBytes at hk
  · rw [sextet2_eq_octets, octet1_groupOfOctets, octet2_groupOfOctets, hmissing (by omega),
      hmissing (by omega)]
    rfl
  · rw [sextet3_eq_octets, octet2_groupOfOctets, hmissing (by omega)]
    rfl

theorem decodeGroupAt_congr {text text' : List Byte} {g g' : Nat}
    (h : ∀ m < 4, sextetAt text (4 * g + m) = sextetAt text' (4 * g' + m)) :
    decodeGroupAt text g = decodeGroupAt text' g' := by
  have h0 : sextetAt text (4 * g) = sextetAt text' (4 * g') := h 0 (by decide)
  rw [decodeGroupAt, decodeGroupAt, h0, h 1 (by decide), h 2 (by decide), h 3 (by decide)]

/-- Group by group the text of ENCODE stands for the bits of its source. -/
theorem decodeGroupAt_encodeText {bytes : List Byte} {g : Nat} (hg : g < (bytes.length + 2) / 3) :
    decodeGroupAt (encodeText bytes) g = groupAt bytes (3 * g) := by
  rw [← decodeGroupAt_groupSymbols]
  refine decodeGroupAt_congr fun m hm => ?_
  have hk : 4 * g + m < encodedLength bytes.length := by
    unfold encodedLength
    omega
  rw [sextetAt, sextetAt, List.getD_eq_getElem?_getD, List.getD_eq_getElem?_getD, encodeText_getElem? hk,
    show (4 * g + m) / 4 = g by omega, show (4 * g + m) % 4 = 4 * 0 + m by omega]

/-! ### The bytes and their number -/

theorem octetsOf_groupAt_getElem? (bytes : List Byte) (i : Nat) {m : Nat} (hm : m < 3) :
    (octetsOf (groupAt bytes i))[m]? = some (bytes.getD (i + m) 0) := by
  match m, hm with
  | 0, _ | 1, _ | 2, _ => simp [octetsOf, groupAt]

/-- The padding takes off what the last group lacks (R98, R114). -/
theorem decodedLength_encodeText (bytes : List Byte) : decodedLength (encodeText bytes) = bytes.length := by
  rcases Nat.eq_zero_or_pos bytes.length with hzero | hpos
  · obtain rfl := List.length_eq_zero_iff.mp hzero
    rfl
  have hpad (k : Nat) (hk : k < encodedLength bytes.length) : padAt (encodeText bytes) k =
      if realBytes bytes.length (3 * (k / 4)) < k % 4 then 1 else 0 := by
    rw [padAt]
    exact if_congr (encodeText_getElem?_eq_padChar_iff hk) rfl rfl
  have h4 := four_le_encodedLength hpos
  rw [decodedLength, encodeText_length, hpad _ (by omega), hpad _ (by omega)]
  unfold encodedLength realBytes
  split_ifs <;> omega

/-- The octets of the groups are the source bytes, then zeros. -/
theorem decodeText_encodeText (bytes : List Byte) : decodeText (encodeText bytes) = bytes := by
  rw [decodeText, decodedLength_encodeText, encodeText_length]
  refine List.ext_getElem? fun k => ?_
  rcases Nat.lt_or_ge k bytes.length with hk | hk
  · have hg : k / 3 < (bytes.length + 2) / 3 := by omega
    have hg' : k / 3 < encodedLength bytes.length / 4 := by
      unfold encodedLength
      omega
    rw [List.getElem?_take_of_lt hk, getElem?_flatMap_of_length (by decide) (fun _ => octetsOf_length _),
      List.getElem?_range hg', Option.bind_some, decodeGroupAt_encodeText hg,
      octetsOf_groupAt_getElem? _ _ (Nat.mod_lt k (by decide)), Nat.div_add_mod, List.getD_eq_getElem _ _ hk,
      List.getElem?_eq_getElem hk]
  · rw [List.getElem?_eq_none hk, List.getElem?_eq_none ((List.length_take_le _ _).trans hk)]

/-- The text of ENCODE passes every test of R119. -/
theorem decodeWhole_encodeText {bytes : List Byte} (hne : bytes ≠ []) :
    decodeWhole true (encodeText bytes) true = some (bytes, bytes.length) := by
  have hlen : (encodeText bytes).length = encodedLength bytes.length := encodeText_length bytes
  have hall : (encodeText bytes).all allowed = true := List.all_eq_true.mpr fun _ => allowed_of_mem_encodeText
  have hpos := four_le_encodedLength (List.length_pos_iff.mpr hne)
  have h4 : encodedLength bytes.length % 4 = 0 := Nat.mul_mod_right _ _
  rw [decodeWhole_eq (fun _ => hlen), if_neg (not_or.mpr ⟨by decide, by omega⟩), if_neg (by simp [hall]),
    lengthResult, hlen, if_neg (not_not.mpr h4), if_neg (by decide), decodeResult, decodeText_encodeText,
    decodedLength_encodeText]

theorem encodeWhole_eq_some {maxLen : Nat} {present grant : Bool} {bytes : List Byte} {r : List Byte × Nat}
    (h : encodeWhole maxLen present bytes grant = some r) : bytes ≠ [] ∧ r = encodeResult bytes := by
  unfold encodeWhole at h
  split at h
  · rename_i htests
    simp only [Bool.and_eq_true, decide_eq_true_eq] at htests
    obtain ⟨⟨⟨-, hne⟩, -⟩, -⟩ := htests
    exact ⟨hne, (Option.some.inj h).symm⟩
  · cases h

/-- The first RES_LEN bytes of DST are the text without its terminator. -/
theorem take_encodedLength (bytes : List Byte) :
    (encodeText bytes ++ [terminator]).take (encodedLength bytes.length) = encodeText bytes := by
  rw [← encodeText_length, List.take_left]

/-- Settles O52: the first RES_LEN bytes are the text, which decodes to the source; the other clauses are evaluated. -/
theorem decodeUndoesEncode : Obligations.DecodeUndoesEncode := by
  refine ⟨fun maxLen present bytes grant dst n h => ?_, fun maxLen present grant => ?_, by decide, by decide⟩
  · obtain ⟨hne, hr⟩ := encodeWhole_eq_some h
    obtain ⟨rfl, rfl⟩ := Prod.mk.inj hr
    rw [take_encodedLength, decodeWhole_encodeText hne]
  · simp [encodeWhole]

end Sys2Proof.Machine

/-! ## The round trip as two runs of the machine (O53) -/

namespace Sys2Proof.Machine

variable {s t : State}

/-! ### Runs keep what every step keeps -/

theorem runSteps_induction {P : State → Prop} (hstep : ∀ s t, P s → step s = .next t → P t) {k : Nat} (h : P s)
    (hrun : runSteps k s = .next t) : P t := by
  induction k generalizing s with
  | zero =>
    cases hrun
    exact h
  | succ k ih =>
    cases hs : step s with
    | next u => exact ih (hstep s u h hs) ((runSteps_succ_of_next hs).symm.trans hrun)
    | fault f | refused r => simp [runSteps, hs] at hrun

theorem runSteps_inv {k : Nat} (h : s.Inv) (hrun : runSteps k s = .next t) : t.Inv :=
  runSteps_induction (fun _ _ => step_inv) h hrun

theorem runSteps_lenw {k : Nat} (hrun : runSteps k s = .next t) : t.lenw = s.lenw :=
  runSteps_induction (P := fun u => u.lenw = s.lenw) (fun _ _ h hs => (step_lenw hs).trans h) rfl hrun

/-! ### A START, granted -/

/-- The host presents `c` next, and the allocator's one coming answer is a grant. -/
def State.presented (s : State) (c : Command) : State := { s with turns := [.start c], answers := [true] }

/-- What an accepted START of `c` leaves: the core to move, a grant to come. -/
def State.started (s : State) (c : Command) : State := { s with turns := [], answers := [true] }.latch c

theorem step_presented {c : Command} (hr : s.readyFlag = true) (hc : c.wf s.lenw = true) :
    step (s.presented c) = .next (s.started c) := by
  obtain ⟨hfits, hserved⟩ := Bool.and_eq_true_iff.mp hc
  show hostStart c { s with turns := [], answers := [true] } = _
  rw [hostStart, if_neg, if_neg, if_neg]
  · rfl
  · simp [hserved]
  · simp [hfits]
  · simpa [State.readyFlag] using hr

theorem started_inv {c : Command} (h : s.Inv) (hr : s.readyFlag = true) (hc : c.wf s.lenw = true) :
    (s.started c).Inv :=
  (h.withInputs [] [true] s.draws).latch hr hc

/-- A buffer presented with its own length. -/
def commandOf (w : CmdWord) (bytes : List Byte) : Command := ⟨w, bytes.length, some bytes⟩

theorem commandOf_wf {w : CmdWord} {bytes : List Byte} {lenw : Nat} (hlen : bytes.length ≤ Config.maxLen lenw) :
    (commandOf w bytes).wf lenw = true := by
  have hserved : (commandOf w bytes).sourceServed = true := by
    unfold Command.sourceServed commandOf
    cases w.getLsbD 1 <;> simp
  rw [Command.wf, hserved, Bool.and_true]
  exact decide_eq_true hlen

theorem source_started (s : State) (w : CmdWord) (bytes : List Byte) :
    (s.started (commandOf w bytes)).source = bytes := List.take_length

/-- What the operation yields from CHECK on, a START of it that is granted runs to. -/
theorem presented_runs {w : CmdWord} {bytes : List Byte} {n : Nat} {r : Option (List Byte × Nat)}
    (hr : s.readyFlag = true) (hlen : bytes.length ≤ s.maxLen)
    (hgo : (s.started (commandOf w bytes)).YieldsAfter n r) :
    ∃ k t, runSteps k (s.presented (commandOf w bytes)) = .next t ∧ t.phase = .done ∧
      t.hostResult = some (r.map fun r => (r.1.map some, r.2)) := by
  obtain ⟨-, t, hrun, hdone, hres, -⟩ := hgo
  exact ⟨n + 1, t, (runSteps_succ_of_next (step_presented hr (commandOf_wf hlen))).trans hrun, hdone, hres⟩

theorem encode_runs {bytes : List Byte} (h : s.Inv) (hr : s.readyFlag = true) (hlen : bytes.length ≤ s.maxLen) :
    ∃ k t, runSteps k (s.presented (commandOf 0b10#2 bytes)) = .next t ∧ t.phase = .done ∧
      t.hostResult = some ((encodeWhole s.maxLen true bytes true).map fun r => (r.1.map some, r.2)) := by
  have hpres : (s.started (commandOf 0b10#2 bytes)).cmdPresent = true := show (0b10#2).getLsbD 1 = true by decide
  have hgo := encodeRunIsTheWholeFunction _ (started_inv h hr (commandOf_wf (w := 0b10#2) hlen)) rfl
    (show (0b10#2).getLsbD 0 = false by decide) rfl
  rw [source_started, hpres] at hgo
  exact presented_runs hr hlen hgo

theorem decode_runs {text : List Byte} (h : s.Inv) (hr : s.readyFlag = true) (hlen : text.length ≤ s.maxLen) :
    ∃ k t, runSteps k (s.presented (commandOf 0b11#2 text)) = .next t ∧ t.phase = .done ∧
      t.hostResult = some ((decodeWhole true text true).map fun r => (r.1.map some, r.2)) := by
  have hpres : (s.started (commandOf 0b11#2 text)).cmdPresent = true := show (0b11#2).getLsbD 1 = true by decide
  have hgo := decodeRunIsTheWholeFunction _ (started_inv h hr (commandOf_wf (w := 0b11#2) hlen)) rfl
    (show (0b11#2).getLsbD 0 = true by decide) rfl
  rw [source_started, hpres] at hgo
  exact presented_runs hr hlen hgo

/-! ### Both runs -/

theorem le_encodedLength (n : Nat) : n ≤ encodedLength n := by
  unfold encodedLength
  omega

theorem encodeWhole_of_fits {maxLen : Nat} {bytes : List Byte} (hne : bytes ≠ [])
    (hfits : encodedLength bytes.length + 1 ≤ maxLen) :
    encodeWhole maxLen true bytes true = some (encodeResult bytes) := by
  simp [encodeWhole, encodeResult, hne, hfits]

/-- Settles O53: the first run ends in R96's text, with the invariant and LENW as they were; the second in R119's bytes
of that text, which are the source. -/
theorem roundTripOnTheMachine : Obligations.RoundTripOnTheMachine := by
  intro s bytes h hr hne hfits
  have hle := le_encodedLength bytes.length
  obtain ⟨k, t, hrun, hdone, hres⟩ := encode_runs h hr (bytes := bytes) (by omega)
  have hlen : (encodeText bytes).length = encodedLength bytes.length := encodeText_length bytes
  rw [encodeWhole_of_fits hne hfits, encodeResult, ← hlen] at hres
  have ht : t.Inv := runSteps_inv (h.withInputs _ _ s.draws) hrun
  have hmax : t.maxLen = s.maxLen := congrArg Config.maxLen (runSteps_lenw (s := s.presented _) hrun)
  obtain ⟨l, u, hrun', -, hres'⟩ := decode_runs ht (readyFlag_of_phase hdone) (text := encodeText bytes) (by omega)
  rw [decodeWhole_encodeText hne] at hres'
  exact ⟨k, l, _, t, u, encodeText bytes, hrun, hres, rfl, hrun', hres'⟩

end Sys2Proof.Machine

/-! ## What the core's turn does to an operation in progress

Said once for both operations: a test fails or passes, the allocator is asked, a group is done, or the result is
delivered. The statements on failures, on the allocator and on the end of every operation are read off it.
-/

namespace Sys2Proof.Machine

variable {s t : State} {present : Bool}

/-- A test that stands before ALLOC fails (R91, R92, R111 to R114, R145). -/
def State.FailsTest (s : State) : Prop :=
  s.cmdPresent = false ∨ s.srcLen = 0 ∨
    if s.cmdOp then s.source.all allowed = false ∨ s.srcLen % 4 ≠ 0 else s.maxLen < encodedLength s.srcLen + 1

/-- The steps of an operation, by what they leave. -/
inductive OperationStep (s : State) : State → Prop where
  /-- A test fails (R146). -/
  | fail (cause : FailCause) (hp : s.phase = .check ∨ s.phase = .validate ∨ s.phase = .length) (hf : s.FailsTest) :
    OperationStep s (raiseFail cause s)
  /-- E-CHECK passes (R91). -/
  | checkEncode (hp : s.phase = .check) : OperationStep s (s.enter .length)
  /-- D-CHECK passes (R111). -/
  | checkDecode (hp : s.phase = .check) : OperationStep s ((s.setV 0).enter .validate)
  /-- D-VALIDATE passes (R113). -/
  | validate (hp : s.phase = .validate) :
    OperationStep s ((s.setV (s.v + 1)).enter (if s.v + 1 = s.srcLen then .length else .validate))
  /-- E-LENGTH or D-LENGTH passes (R92, R114). -/
  | size (hp : s.phase = .length) (n : Nat) : OperationStep s ((s.setOutLen n).enter .alloc)
  /-- The allocator is asked (R93, R116). -/
  | request (hp : s.phase = .alloc) (n : Nat) : OperationStep s (s.requestBuffer n)
  /-- A group is done: I moves on by three at least, or by what is left of the source (R94, R117). -/
  | group (hp : s.phase = .run) (g : Group) (d : Option NamedBuffer) (i j : Nat)
    (hi : s.i + min 3 (s.srcLen - s.i) ≤ i) :
    OperationStep s { s with acc := g, dst := d, i := i, j := j, phase := if i = s.srcLen then .finish else .run }
  /-- The buffer passes to the host (R95, R118). -/
  | deliver (hp : s.phase = .finish) (d : NamedBuffer) :
    OperationStep s { s with
      delivered := d :: s.delivered, dst := none
      res := some { null := false, len := s.outLen, buf := some d.name }, phase := .done }

theorem execEncode_operationStep (hpres : present = s.cmdPresent) (hop : s.cmdOp = false)
    (h : execEncode present s = .next t) : OperationStep s t := by
  subst hpres
  rcases execEncode_next h with ⟨hp, h⟩ | ⟨hp, h⟩ | ⟨hp, h⟩ | ⟨hp, h⟩ | ⟨hp, h⟩
  · -- E-CHECK
    obtain ⟨hf, rfl⟩ | ⟨-, -, rfl⟩ := encodeCheck_ok hp h
    · exact .fail _ (.inl hp) (hf.imp_right .inl)
    · exact .checkEncode hp
  · -- E-LENGTH
    obtain ⟨hf, rfl⟩ | ⟨-, rfl⟩ := encodeLength_ok hp h
    · exact .fail _ (.inr (.inr hp)) (.inr (.inr (by simpa [hop] using hf)))
    · exact .size hp _
  · -- E-ALLOC
    obtain rfl := encodeAlloc_ok hp h
    exact .request hp _
  · -- E-GROUP
    obtain ⟨g, d, -, -, -, rfl⟩ := encodeGroup_ok hp h
    exact .group hp _ _ _ _ le_rfl
  · -- E-FINISH
    obtain ⟨d, -, -, rfl⟩ := encodeFinish_ok hp h
    exact .deliver hp { d with buf := d.buf.write s.j terminator }

theorem execDecode_operationStep (hpres : present = s.cmdPresent) (hop : s.cmdOp = true)
    (h : execDecode present s = .next t) : OperationStep s t := by
  subst hpres
  rcases execDecode_next h with ⟨hp, h⟩ | ⟨hp, h⟩ | ⟨hp, h⟩ | ⟨hp, h⟩ | ⟨hp, h⟩ | ⟨hp, h⟩
  · -- D-CHECK
    obtain ⟨hf, rfl⟩ | ⟨-, -, rfl⟩ := decodeCheck_ok hp h
    · exact .fail _ (.inl hp) (hf.imp_right .inl)
    · exact .checkDecode hp
  · -- D-VALIDATE
    obtain ⟨c, hc, ⟨ha, rfl⟩ | ⟨-, rfl⟩⟩ := decodeValidate_ok hp h
    · have hall : s.source.all allowed = false :=
        List.all_eq_false.mpr ⟨c, List.mem_of_getElem? hc, by simp [ha]⟩
      exact .fail _ (.inr (.inl hp)) (.inr (.inr (by simp [hop, hall])))
    · exact .validate hp
  · -- D-LENGTH
    obtain ⟨hf, rfl⟩ | ⟨-, c1, c2, -, -, rfl⟩ := decodeLength_ok hp h
    · exact .fail _ (.inr (.inr hp)) (.inr (.inr (by simp [hop, hf])))
    · exact .size hp _
  · -- D-ALLOC
    obtain rfl := decodeAlloc_ok hp h
    exact .request hp _
  · -- D-GROUP
    obtain ⟨g, c, -, hc, rfl⟩ := decodeGroup_ok hp h
    have ec : c = { s.setAcc g with dst := c.dst, j := c.j } := emit_three_keeps (s := s.setAcc g) hp hc
    rw [ec]
    exact .group hp g c.dst (s.i + 4) c.j (by omega)
  · -- D-FINISH
    obtain ⟨d, -, rfl⟩ := (publish_ok hp).mp h
    exact .deliver hp d

/-- While READY = 0 the core's turn is a step of the operation. -/
theorem coreTurn_operationStep (hr : s.readyFlag = false) (h : coreTurn s = .next t) : OperationStep s t := by
  rw [coreTurn_of_not_ready hr, exec_operation] at h
  cases hop : s.cmdOp with
  | false => exact execEncode_operationStep rfl hop (by simpa [hop] using h)
  | true => exact execDecode_operationStep rfl hop (by simpa [hop] using h)

theorem step_of_no_turns (ht : s.turns = []) : step s = coreTurn s := by simp [step, ht]

namespace OperationStep

/-- No step writes the turns or what the tests look at. -/
theorem keeps (h : OperationStep s t) : t.turns = s.turns ∧ (t.FailsTest ↔ s.FailsTest) := by
  cases h with
  | request _ n =>
    obtain ⟨_, _, _, _, _, _, _, _, ht, -⟩ := requestBuffer_frame s n
    rw [ht]
    exact ⟨rfl, Iff.rfl⟩
  | _ => exact ⟨rfl, Iff.rfl⟩

theorem phase_ne_idle (h : OperationStep s t) : t.phase ≠ .idle := by
  cases h with
  | validate | group => dsimp; split <;> simp
  | request _ n => rcases requestBuffer_eq s n with ⟨-, ht⟩ | ⟨-, ht⟩ <;> simp [ht]
  | _ => simp

end OperationStep

end Sys2Proof.Machine

/-! ## The allocator and the failure entry (O37, O38) -/

namespace Sys2Proof.Machine

variable {s t : State}

/-- A grant is a fresh buffer under the next name (R144). -/
theorem requestBuffer_granted {n : Nat} (hg : s.draw.1 = true) :
    (s.requestBuffer n).dst = some ⟨s.nextName, Buffer.fresh n⟩ ∧ (s.requestBuffer n).delivered = s.delivered := by
  obtain ⟨-, ht⟩ | ⟨hd, -⟩ := requestBuffer_eq s n
  · rw [ht, draw_frame s]
    exact ⟨rfl, rfl⟩
  · exact absurd (hg.symm.trans hd) (by decide)

/-- A denial is the failure entry, beside the answer taken (R144, R146). -/
theorem requestBuffer_denied {n : Nat} (hd : s.draw.1 = false) : s.requestBuffer n =
    raiseFail .alloc { s with answers := s.draw.2.answers, draws := s.draw.2.draws } := by
  obtain ⟨hg, -⟩ | ⟨-, ht⟩ := requestBuffer_eq s n
  · exact absurd (hd.symm.trans hg) (by decide)
  · rw [ht, ← draw_frame s]

/-- Settles O37: an answer put before the others is the one drawn; the name of a grant is the next one, which under the
invariant no buffer has. -/
theorem allocatorAnswersFreelyWithFreshBuffers : Obligations.AllocatorAnswersFreelyWithFreshBuffers := by
  refine ⟨fun _ _ => rfl, fun s hnone => ?_, fun s n h hg => ?_, fun s n hd => ?_⟩
  · simp [State.draw, hnone]
  · obtain ⟨hdst, hdel⟩ := requestBuffer_granted (n := n) hg
    exact ⟨_, hdst, rfl, Buffer.read_fresh n, fun e he => (h.names_used e he).ne, hdel⟩
  · rw [requestBuffer_denied hd]
    exact ⟨rfl, rfl⟩

theorem State.Inv.res_eq_none (h : s.Inv) (hr : s.readyFlag = false) : s.res = none := by
  have := h.res_held
  rwa [hr, Option.isSome_eq_false_iff, Option.isNone_iff_eq_none] at this

/-- Settles O38: of the steps of an operation only a failed test and a denial end with RES_NULL = 1; both are the
failure entry, in a phase without DST. -/
theorem failureEntryWritesOnlyTheResult : Obligations.FailureEntryWritesOnlyTheResult := by
  refine ⟨fun _ _ => rfl, fun s t h hr hs hn => ?_⟩
  have hres : s.hostResNull = none := by simp [State.hostResNull, h.res_eq_none hr]
  have hkept (ht : t.hostResNull = s.hostResNull) : False := by simp [ht, hres] at hn
  cases coreTurn_operationStep hr hs with
  | fail cause hp =>
    have hd : s.dst = none := h.dst_eq_none (by rcases hp with hp | hp | hp <;> simp [hp])
    have halloc : s.phase ≠ .alloc := by rcases hp with hp | hp | hp <;> simp [hp]
    rw [if_neg halloc, if_neg halloc]
    exact ⟨rfl, hd, rfl⟩
  | request hp n =>
    have hd : s.dst = none := h.dst_eq_none (by simp [hp])
    rw [if_pos hp, if_pos hp]
    obtain ⟨-, ht⟩ | ⟨hdenied, -⟩ := requestBuffer_eq s n
    · exact (hkept (by rw [ht, draw_frame s]; rfl)).elim
    · rw [requestBuffer_denied hdenied]
      exact ⟨rfl, hd, rfl⟩
  | deliver => cases hn
  | checkEncode | checkDecode | validate | size | group => exact (hkept rfl).elim

end Sys2Proof.Machine

/-! ## The allocator is asked last and once (O50) -/

namespace Sys2Proof.Machine

variable {s t u : State}

/-- The allocator's coming answers: the list and the counter behind it (R144). -/
def State.comingAnswers (s : State) : List Bool × Nat := (s.answers, s.draws)

theorem comingAnswers_draw_congr (h : t.comingAnswers = s.comingAnswers) :
    t.draw.2.comingAnswers = s.draw.2.comingAnswers := by
  obtain ⟨ha, hd⟩ := Prod.mk.inj h
  unfold State.draw
  rw [ha, hd]
  split <;> rfl

theorem comingAnswers_requestBuffer (s : State) (n : Nat) :
    (s.requestBuffer n).comingAnswers = s.draw.2.comingAnswers := by
  rcases requestBuffer_eq s n with ⟨-, ht⟩ | ⟨-, ht⟩ <;> rw [ht] <;> rfl

/-- Past LENGTH every test has passed. -/
theorem State.Inv.not_failsTest (h : s.Inv) (hp : s.phase.sized) : ¬ s.FailsTest := by
  have hpast : s.phase.pastCheck := .inr (.inr hp)
  have hval : s.phase ≠ .validate := by rcases hp with hp | hp | hp <;> simp [hp]
  obtain ⟨hpres, hpos⟩ := h.past_check hpast
  rintro (hf | hf | hf)
  · exact absurd (hpres.symm.trans hf) (by decide)
  · omega
  · cases hop : s.cmdOp with
    | false =>
      have := h.encode_sized hp hop
      rw [if_neg (by simp [hop])] at hf
      omega
    | true =>
      rw [if_pos hop, h.validated hpast hval hop] at hf
      exact hf.elim (by decide) (· (h.decode_sized hp hop).1)

/-- The operation has come past ALLOC: it is in its loop, or it has ended with every test passed. -/
def State.Asked (s : State) : Prop := s.phase.looping ∨ s.phase = .done ∧ ¬ s.FailsTest

/-- The allocator is asked by the step that comes past ALLOC, and by no other. -/
theorem OperationStep.asks (h : s.Inv) (hs : OperationStep s t) :
    (¬ s.Asked ∧ t.Asked ∧ t.comingAnswers = s.draw.2.comingAnswers) ∨
    ((t.Asked ↔ s.Asked) ∧ t.comingAnswers = s.comingAnswers) := by
  have hkeep := hs.keeps.2
  cases hs with
  | fail cause hp hf =>
    have hs : ¬ s.Asked := by rcases hp with hp | hp | hp <;> simp [State.Asked, hp]
    exact .inr ⟨iff_of_false (by simp [State.Asked, hkeep, hf]) hs, rfl⟩
  | checkEncode hp | checkDecode hp | size hp => exact .inr ⟨by simp [State.Asked, Phase.looping, hp], rfl⟩
  | validate hp =>
    refine .inr ⟨iff_of_false ?_ (by simp [State.Asked, hp]), rfl⟩
    dsimp [State.Asked]
    split <;> simp
  | request hp n =>
    have hpass := h.not_failsTest (.inl hp)
    refine .inl ⟨by simp [State.Asked, hp], ?_, comingAnswers_requestBuffer s n⟩
    obtain ⟨-, ht⟩ | ⟨-, ht⟩ := requestBuffer_eq s n
    · exact .inl (.inl (by rw [ht]; rfl))
    · exact .inr ⟨by rw [ht]; rfl, hkeep.not.mpr hpass⟩
  | group hp => exact .inr ⟨iff_of_true (.inl looping_ite) (.inl (.inl hp)), rfl⟩
  | deliver hp =>
    have hpass := h.not_failsTest (.inr (.inr hp))
    exact .inr ⟨iff_of_true (.inr ⟨rfl, hkeep.not.mpr hpass⟩) (.inl (.inr hp)), rfl⟩

/-- `u` stands in a run of the core from `s`, in which the allocator has been asked once if the operation has come past
ALLOC, and not at all otherwise. -/
structure AskedAtMostOnce (s u : State) : Prop where
  inv : u.Inv
  turns : u.turns = []
  tests : u.FailsTest ↔ s.FailsTest
  once : u.Asked → u.comingAnswers = s.draw.2.comingAnswers
  untouched : ¬ u.Asked → u.comingAnswers = s.comingAnswers

theorem AskedAtMostOnce.step (h : AskedAtMostOnce s u) (hs : step u = .next t) : AskedAtMostOnce s t := by
  have hcore : coreTurn u = .next t := (step_of_no_turns h.turns).symm.trans hs
  rcases coreTurn_next hcore with ⟨-, rfl⟩ | ⟨hr, -⟩
  · exact h
  have hop := coreTurn_operationStep hr hcore
  obtain ⟨hturns, htests⟩ := hop.keeps
  refine ⟨step_inv h.inv hs, hturns.trans h.turns, htests.trans h.tests, fun ha => ?_, fun ha => ?_⟩
  · obtain ⟨hnot, -, hans⟩ | ⟨hiff, hans⟩ := hop.asks h.inv
    · exact hans.trans (comingAnswers_draw_congr (h.untouched hnot))
    · exact hans.trans (h.once (hiff.mp ha))
  · obtain ⟨-, hasked, -⟩ | ⟨hiff, hans⟩ := hop.asks h.inv
    · exact absurd hasked ha
    · exact hans.trans (h.untouched (hiff.not.mp ha))

/-- A run from CHECK to DONE has drawn one answer exactly when every test has passed. -/
theorem run_asks {k : Nat} (h : s.Inv) (hp : s.phase = .check) (hturns : s.turns = [])
    (hrun : runSteps k s = .next t) (hdone : t.phase = .done) :
    (s.FailsTest → t.comingAnswers = s.comingAnswers) ∧
      (¬ s.FailsTest → t.comingAnswers = s.draw.2.comingAnswers) := by
  have hs : AskedAtMostOnce s s := ⟨h, hturns, Iff.rfl, by simp [State.Asked, hp], fun _ => rfl⟩
  have ht : AskedAtMostOnce s t := runSteps_induction (fun _ _ => AskedAtMostOnce.step) hs hrun
  refine ⟨fun hf => ht.untouched ?_, fun hf => ht.once (.inr ⟨hdone, ht.tests.not.mpr hf⟩)⟩
  simp [State.Asked, hdone, ht.tests, hf]

/-- Settles O50: `run_asks` on the runs of O48 and O49, with the tests of each operation written out. -/
theorem allocatorIsAskedLastAndOnce : Obligations.AllocatorIsAskedLastAndOnce := by
  refine ⟨fun s h hp hop hturns => ?_, fun s h hp hop hturns => ?_⟩
  · obtain ⟨-, t, hrun, hdone, -⟩ := encodeRunIsTheWholeFunction s h hp hop hturns
    have hasks := run_asks h hp hturns hrun hdone
    simp only [State.FailsTest, hop, Bool.false_eq_true, if_false] at hasks
    refine ⟨t, hrun, hdone, ?_⟩
    split
    · exact Prod.mk.inj (hasks.1 ‹_›)
    · exact Prod.mk.inj (hasks.2 ‹_›)
  · obtain ⟨-, t, hrun, hdone, -⟩ := decodeRunIsTheWholeFunction s h hp hop hturns
    have hasks := run_asks h hp hturns hrun hdone
    simp only [State.FailsTest, hop, if_true] at hasks
    refine ⟨t, hrun, hdone, ?_⟩
    split
    · exact Prod.mk.inj (hasks.1 ‹_›)
    · exact Prod.mk.inj (hasks.2 ‹_›)

end Sys2Proof.Machine

/-! ## Every operation reaches DONE (O51) -/

namespace Sys2Proof.Machine

variable {s t : State}

/-- A bound on the steps an operation still takes to DONE, whichever it is (R183, R184): one for each phase to come, for
each character not validated, and for every three bytes not read. -/
def State.stepsLeft (s : State) : Nat :=
  match s.phase with
  | .check => 4 + s.srcLen + (s.srcLen + 2) / 3
  | .validate => 3 + (s.srcLen - s.v) + (s.srcLen + 2) / 3
  | .length => 3 + (s.srcLen + 2) / 3
  | .alloc => 2 + (s.srcLen + 2) / 3
  | .run => 1 + (s.srcLen - s.i + 2) / 3
  | .finish => 1
  | .idle | .done => 0

theorem stepsLeft_le (s : State) : s.stepsLeft ≤ 4 + s.srcLen + (s.srcLen + 2) / 3 := by
  unfold State.stepsLeft
  split <;> omega

theorem OperationStep.stepsLeft_lt (h : s.Inv) (hs : OperationStep s t) : t.stepsLeft < s.stepsLeft := by
  cases hs with
  | fail cause hp =>
    show 0 < s.stepsLeft
    unfold State.stepsLeft
    rcases hp with hp | hp | hp <;> simp only [hp] <;> omega
  | checkEncode hp | checkDecode hp | size hp =>
    simp only [State.stepsLeft, hp, State.enter_phase, State.enter_srcLen, State.enter_v, State.setV_srcLen,
      State.setV_v, State.setOutLen_srcLen]
    omega
  | validate hp =>
    have hv := (h.validating hp).2.1
    simp only [State.stepsLeft, hp, State.enter_phase, State.enter_srcLen, State.enter_v, State.setV_srcLen,
      State.setV_v]
    by_cases hend : s.v + 1 = s.srcLen
    · simp only [if_pos hend]
      omega
    · simp only [if_neg hend]
      omega
  | request hp n =>
    obtain ⟨-, ht⟩ | ⟨-, ht⟩ := requestBuffer_eq s n
    · rw [ht, draw_frame s]
      simp [State.stepsLeft, hp]
    · simp [ht, State.stepsLeft, hp]
  | group hp g d i j hi =>
    have hlt := (h.run_index hp).1
    simp only [State.stepsLeft, hp]
    by_cases hend : i = s.srcLen
    · simp only [if_pos hend]
      omega
    · simp only [if_neg hend]
      omega
  | deliver hp => simp [State.stepsLeft, hp]

/-- The core alone reaches DONE: each step answers and brings the bound down. -/
theorem reaches_done (h : s.Inv) (hturns : s.turns = []) (hidle : s.phase ≠ .idle) :
    ∃ k t, k ≤ s.stepsLeft ∧ runSteps k s = .next t ∧ t.phase = .done := by
  induction hn : s.stepsLeft using Nat.strong_induction_on generalizing s with
  | _ n ih =>
    by_cases hdone : s.phase = .done
    · exact ⟨0, s, Nat.zero_le n, rfl, hdone⟩
    have hr : s.readyFlag = false :=
      Bool.eq_false_iff.mpr fun hready => ((readyAndDoneFollowPhase s).1.mp hready).elim hidle hdone
    obtain ⟨t, hcore⟩ := h.coreTurn_answers
    have hs : step s = .next t := (step_of_no_turns hturns).trans hcore
    have hop := coreTurn_operationStep hr hcore
    have hlt : t.stepsLeft < n := hn ▸ hop.stepsLeft_lt h
    obtain ⟨k, u, hk, hrun, hu⟩ := ih _ hlt (step_inv h hs) (hop.keeps.1.trans hturns) hop.phase_ne_idle rfl
    exact ⟨k + 1, u, by omega, (runSteps_succ_of_next hs).trans hrun, hu⟩

/-- Settles O51: the bound is largest in CHECK. -/
theorem everyOperationReachesDone : Obligations.EveryOperationReachesDone := by
  intro s h hr hturns
  have hidle : s.phase ≠ .idle := fun hp => Bool.false_ne_true (hr.symm.trans (readyFlag_of_phase hp))
  obtain ⟨k, t, hk, hrun, hdone⟩ := reaches_done h hturns hidle
  exact ⟨k, t, hk.trans (stepsLeft_le s), hrun, hdone⟩

end Sys2Proof.Machine

/-! ## START and RELEASE (O14, O16, O18) -/

namespace Sys2Proof.Machine

variable {s : State} {c : Command} {rest : List Turn}

theorem step_of_start (ht : s.turns = .start c :: rest) : step s = hostStart c { s with turns := rest } := by
  simp [step, ht]

theorem hostStart_of_not_ready (hr : s.readyFlag = false) : hostStart c s = .next s := by simp [hostStart, hr]

theorem hostStart_of_wf (hr : s.readyFlag = true) (hc : c.wf s.lenw = true) : hostStart c s = .next (s.latch c) := by
  obtain ⟨hfits, hserved⟩ := Bool.and_eq_true_iff.mp hc
  simp [hostStart, hr, hfits, hserved]

/-- Settles O14: an accepted START latches, which writes the fields named. -/
theorem startLatchesOnlyWhenReady : Obligations.StartLatchesOnlyWhenReady := by
  intro s c rest hturn
  rw [step_of_start hturn]
  refine ⟨fun hr hc => ?_, fun hr => hostStart_of_not_ready hr⟩
  exact ⟨_, hostStart_of_wf (s := { s with turns := rest }) hr hc, rfl, rfl, rfl, rfl, rfl, rfl⟩

/-- Settles O18: latching overwrites the result registers. -/
theorem earlierResultDoesNotReachTheNextOperation : Obligations.EarlierResultDoesNotReachTheNextOperation := by
  intro s c rest r hturn hr hc
  rw [step_of_start hturn, step_of_start (s := { s with res := r }) hturn]
  exact ⟨_, hostStart_of_wf (s := { s with turns := rest }) hr hc,
    hostStart_of_wf (s := { s with turns := rest, res := r }) hr hc⟩

/-- Settles O16: of the buffers, RELEASE drops those of the name released. -/
theorem releaseEndsTheBuffer : Obligations.ReleaseEndsTheBuffer := by
  intro s name b rest hturn hb
  have hstep : step s = .next { s with
      turns := rest, delivered := s.delivered.filter fun d => d.name != name } := by
    simp [step, hturn, hostRelease, hb]
  refine ⟨_, hstep, rfl, fun k => ?_, fun d hd => ?_, fun other k hne => ?_⟩
  · rw [State.hostByte, findBuffer_filter, if_pos rfl]
    rfl
  · simpa using hd
  · rw [State.hostByte, findBuffer_filter, if_neg hne]
    rfl

end Sys2Proof.Machine

/-! ## Reset, the idle core and the refused RELEASE (O9, O10, O13, O17) -/

namespace Sys2Proof.Machine

variable {s : State} {rest : List Turn}

theorem readReg_of_idle (hp : s.phase = .idle) (r : Reg) : s.readReg r = .error (.registerHoldsNoValue r) := by
  have hnone : r.holdsValue .idle = false := by cases r <;> rfl
  exact readReg_error.mpr ⟨hp ▸ hnone, rfl⟩

theorem resetEvent_atReset (s : State) : (resetEvent s).AtReset where
  phase := rfl
  ready := rfl
  done := rfl
  resNull := rfl
  resLen := rfl
  resBuf := rfl
  src := rfl
  noValue := readReg_of_idle rfl
  dst := rfl

/-- The operation's buffer is gone, so only the delivered ones are left (R172). -/
theorem resetEvent_buffers (s : State) : (resetEvent s).buffers = s.delivered := rfl

theorem resetEvent_hostByte (s : State) (name k : Nat) : (resetEvent s).hostByte name k = s.hostByte name k := rfl

/-- The reset event leaves the power-on state as it is, so what it leaves anywhere holds at power-on. -/
theorem resetEvent_reset : resetEvent State.reset = State.reset := rfl

theorem step_of_reset (ht : s.turns = .reset :: rest) : step s = .next (resetEvent { s with turns := rest }) := by
  simp [step, ht]

/-- Settles O9: power-on is what a reset event leaves, and each leaves the values of R170. -/
theorem resetLeavesTheSpecState : Obligations.ResetLeavesTheSpecState :=
  ⟨resetEvent_reset ▸ resetEvent_atReset State.reset, resetEvent_buffers State.reset, resetEvent_atReset⟩

/-- Settles O10: the turn is the reset event, which keeps of the buffers the delivered ones. -/
theorem resetAbandonsTheOperation : Obligations.ResetAbandonsTheOperation := by
  intro s rest hturn
  exact ⟨_, step_of_reset hturn, resetEvent_atReset _, resetEvent_buffers _, resetEvent_lenw _,
    resetEvent_turns _, resetEvent_hostByte _⟩

theorem coreTurn_of_ready (hr : s.readyFlag = true) : coreTurn s = .next s := by
  simp [coreTurn, State.operation, hr]

theorem step_of_core (ht : s.turns = .core :: rest) : step s = coreTurn { s with turns := rest } := by
  simp [step, ht]

/-- Settles O13: with READY = 1 no operation is in progress, whether or not the turn was listed. -/
theorem coreSitsInIdleAndDone : Obligations.CoreSitsInIdleAndDone := by
  refine fun s hr => ⟨fun hturns => ?_, fun rest hturn => ?_⟩
  · rw [step_of_no_turns hturns, coreTurn_of_ready hr]
  · rw [step_of_core hturn]
    exact coreTurn_of_ready (s := { s with turns := rest }) hr

theorem step_of_release {name : Nat} (ht : s.turns = .release name :: rest) :
    step s = hostRelease name { s with turns := rest } := by simp [step, ht]

theorem hostRelease_of_not_owned {name : Nat} (h : ∀ d ∈ s.delivered, d.name ≠ name) :
    hostRelease name s = .refused (.releaseNotOwned name) := by
  simp [hostRelease, findBuffer_eq_none.mpr h]

/-- Settles O17: among the delivered buffers none is found under the name. -/
theorem releaseOfANameNotOwnedIsRefused : Obligations.ReleaseOfANameNotOwnedIsRefused := by
  intro s name rest hturn hnotOwned
  rw [step_of_release hturn]
  exact hostRelease_of_not_owned (s := { s with turns := rest }) hnotOwned

end Sys2Proof.Machine
